-- ==== Sys2Proof/Word.lean ====
section
/-! DEFINITION. The word types of the ACORN-128 NFSR core (spec/00_scope.md rules R6, R8, R9): a byte, a 32-bit bus
word, the 51-bit bus request and the 293-cell register. Bit `i` of each is cell or bit number `i`, bit 0 the least
significant (rule R9). -/

namespace Sys2Proof

/-- A byte (rule R9). -/
abbrev Byte := BitVec 8

/-- A word of the 32-bit bus data path (rules R8, R51). -/
abbrev Word := BitVec 32

/-- A bus request as one number (rule R95). -/
abbrev Request := BitVec 51

/-- The nonlinear feedback shift register: 293 one-bit cells, cell `S[i]` is bit `i`, cell 0 the oldest
(rules R6 STATE_BITS, R9, R22). -/
abbrev Nfsr := BitVec 293

end Sys2Proof
end

