-- ==== Sys2Proof/Syntax.lean ====
section
/-! DEFINITION. The instructions: one constructor for each row of spec/opcode_table.json. The first four are the command
words of CMD (spec/30_encoding.md rule R90), the last six the kinds of bus request (rule R95). -/

namespace Sys2Proof

/-- One row of the opcode table. A bus request carries its byte offset OFF and its data word WDATA. A read ignores
WDATA (rule R95); it is kept so that no bit of a request is dropped. -/
inductive Instr where
  /-- NOP, command word 0 (rule R207). -/
  | nop
  /-- ENCRYPT, command word 1 (rule R203). -/
  | encrypt
  /-- DECRYPT, command word 2 (rule R204). -/
  | decrypt
  /-- CLEAR, command word 3 (rule R205). -/
  | clear
  /-- LD8: bus read of one byte (rule R60). -/
  | ld8 (off : Nat) (wdata : Word)
  /-- LD16: bus read of two bytes (rule R60). -/
  | ld16 (off : Nat) (wdata : Word)
  /-- LD32: bus read of four bytes (rule R60). -/
  | ld32 (off : Nat) (wdata : Word)
  /-- ST8: bus write of one byte (rule R61). -/
  | st8 (off : Nat) (wdata : Word)
  /-- ST16: bus write of two bytes (rule R61). -/
  | st16 (off : Nat) (wdata : Word)
  /-- ST32: bus write of four bytes (rule R61). -/
  | st32 (off : Nat) (wdata : Word)
  deriving DecidableEq, Repr

end Sys2Proof
end

