-- ==== Sys2Proof/WellFormed.lean ====
section
/-! DEFINITION. Which instructions an encoding can hold: a bus request's OFF field has 16 bits, so its offset lies in the
block's window of 65,536 bytes (spec/30_encoding.md rule R95, spec/20_memory.md rule R50). Commands have no operand
field (rule R92). -/

namespace Sys2Proof

/-- The number of byte offsets in the block's window (rule R50). -/
def windowBytes : Nat := 65536

/-- The instruction has an encoding: its offset fits the 16-bit OFF field. -/
def Instr.wellFormed : Instr → Bool
  | .nop => true
  | .encrypt => true
  | .decrypt => true
  | .clear => true
  | .ld8 off _ => decide (off < windowBytes)
  | .ld16 off _ => decide (off < windowBytes)
  | .ld32 off _ => decide (off < windowBytes)
  | .st8 off _ => decide (off < windowBytes)
  | .st16 off _ => decide (off < windowBytes)
  | .st32 off _ => decide (off < windowBytes)

end Sys2Proof
end

