-- ==== Sys2Proof/Decode.lean ====
section
/-! DEFINITION. The two encodings of spec/30_encoding.md: the 32-bit command word (rule R90) and the 51-bit bus request
(rule R95). Decoding is total and rejects by name; the encoder after it is written from the same tables. The block
has no other format, no prefix and no mode bit (rule R91), and fetches no instruction from a memory (R24). -/

namespace Sys2Proof

/-- A word of one of the two formats of rule R91. -/
inductive CodeWord where
  /-- A command word, the data of a 4-byte write to CMD (rule R90). -/
  | command (v : Word)
  /-- A bus request (rule R95). -/
  | request (w : Request)
  deriving DecidableEq, Repr

/-- What the decoder reads: an instruction, or one of the two rejections the spec names. -/
inductive Decoded where
  /-- The word is this instruction. -/
  | instr (i : Instr)
  /-- An illegal command word (rules R90, R96). -/
  | illegalCommand
  /-- A bus request with SIZE = 3 (rule R97). -/
  | reservedSize
  deriving DecidableEq, Repr

/-- DecodeCommand of rule R90: bits 31:4 must be 0, bits 3:0 are OP. Every other word is illegal (rule R96). -/
def decodeCommand (v : Word) : Decoded :=
  if v.extractLsb' 4 28 ≠ 0 then .illegalCommand
  else
    match (v.extractLsb' 0 4).toNat with
    | 0 => .instr .nop
    | 1 => .instr .encrypt
    | 2 => .instr .decrypt
    | 3 => .instr .clear
    | _ => .illegalCommand

/-- WE, bit 50 of a request: `true` is a write (rule R95). -/
def Request.we (w : Request) : Bool := w.getLsbD 50

/-- SIZE, bits 49:48 of a request (rule R95). -/
def Request.size (w : Request) : BitVec 2 := w.extractLsb' 48 2

/-- OFF, bits 47:32 of a request (rule R95). -/
def Request.off (w : Request) : Nat := (w.extractLsb' 32 16).toNat

/-- WDATA, bits 31:0 of a request (rule R95). -/
def Request.wdata (w : Request) : Word := w.extractLsb' 0 32

/-- The bus request of rule R95. SIZE 0, 1 and 2 are accesses of 1, 2 and 4 bytes; SIZE = 3 is reserved (rule R97). -/
def decodeRequest (w : Request) : Decoded :=
  match Request.we w, (Request.size w).toNat with
  | false, 0 => .instr (.ld8 (Request.off w) (Request.wdata w))
  | false, 1 => .instr (.ld16 (Request.off w) (Request.wdata w))
  | false, 2 => .instr (.ld32 (Request.off w) (Request.wdata w))
  | true, 0 => .instr (.st8 (Request.off w) (Request.wdata w))
  | true, 1 => .instr (.st16 (Request.off w) (Request.wdata w))
  | true, 2 => .instr (.st32 (Request.off w) (Request.wdata w))
  | _, _ => .reservedSize

/-- Decoding of either format, total (rules R90, R95). -/
def decode : CodeWord → Decoded
  | .command v => decodeCommand v
  | .request w => decodeRequest w

/-- The request number `(WE << 50) | (SIZE << 48) | (OFF << 32) | WDATA` of rule R95. -/
def packRequest (we : Bool) (size : BitVec 2) (off : Nat) (wdata : Word) : Request :=
  BitVec.ofBool we ++ size ++ BitVec.ofNat 16 off ++ wdata

/-- The word of an instruction: the command words of rule R90, the requests of rules R95 and R99. -/
def encode : Instr → CodeWord
  | .nop => .command 0x00000000#32
  | .encrypt => .command 0x00000001#32
  | .decrypt => .command 0x00000002#32
  | .clear => .command 0x00000003#32
  | .ld8 off wdata => .request (packRequest false 0 off wdata)
  | .ld16 off wdata => .request (packRequest false 1 off wdata)
  | .ld32 off wdata => .request (packRequest false 2 off wdata)
  | .st8 off wdata => .request (packRequest true 0 off wdata)
  | .st16 off wdata => .request (packRequest true 1 off wdata)
  | .st32 off wdata => .request (packRequest true 2 off wdata)

/-- The word of a row of the opcode table, given as the table numbers its bits: the command rows have 32 bits and the
bus-request rows 51 (56 in whole bytes, the bits above 50 zero). -/
def codeWordOf (nbits w : Nat) : Option CodeWord :=
  if nbits ≤ 32 then
    if w < 2 ^ 32 then some (.command (BitVec.ofNat 32 w)) else none
  else
    if w < 2 ^ 51 then some (.request (BitVec.ofNat 51 w)) else none

/-- The instruction the decoder reads from a row's word. -/
def decodeTableWord (nbits w : Nat) : Option Instr :=
  match codeWordOf nbits w with
  | none => none
  | some c =>
    match decode c with
    | .instr i => some i
    | .illegalCommand => none
    | .reservedSize => none

end Sys2Proof
end

