-- ==== Sys2Proof/Config.lean ====
section
/-! DEFINITION. What one implementation of the block fixes (spec/00_scope.md rule R7): the two buffer capacities. They are
an argument of the model: `Machine.State` carries a `Params` that no step changes, so a statement about every state
is a statement about every capacity. LATENCY is not used by the model (rule R7, R280). -/

namespace Sys2Proof.Config

/-- The largest capacity a buffer can have (rule R7: range 1..4096). -/
def maxCap : Nat := 4096

/-- The open parameters AAD_CAP and MSG_CAP, in bytes (rule R7). -/
structure Params where
  /-- AAD_CAP: capacity of the AAD buffer. -/
  aadCap : Nat
  /-- MSG_CAP: capacity of each of MSG_IN and MSG_OUT. -/
  msgCap : Nat
  deriving DecidableEq, Repr

/-- The default instance: both capacities 4096 (rule R7). -/
def Params.standard : Params := ⟨4096, 4096⟩

/-- The capacities are in the range rule R7 allows. -/
def Params.valid (p : Params) : Bool :=
  decide (1 ≤ p.aadCap ∧ p.aadCap ≤ maxCap ∧ 1 ≤ p.msgCap ∧ p.msgCap ≤ maxCap)

end Sys2Proof.Config
end

