-- ==== Sys2Proof/Machine/State.lean ====
section
/-! DEFINITION. The state of one block instance (spec/10_state.md rule R21), the reasons a step can stop, and the state
after reset (rules R42, R260). -/

namespace Sys2Proof.Machine

/-- A 16-byte array register: KEY, IV, TAG_IN or TAG_OUT (rules R27 to R30). -/
abbrev Bytes16 := Vector Byte 16

/-- The three byte buffers AAD, MSG_IN and MSG_OUT (rule R36), keyed by the byte's offset in the block's window
(rule R55). Only bytes that are not 0 are listed, in rising order of offset (`Memory.wf`, Machine/Ops.lean). -/
abbrev Memory := List Host.Cell

/-- A command that PENDING can latch (rule R38). -/
inductive Command where
  | encrypt
  | decrypt
  | clear
  deriving DecidableEq, Repr

/-- The RESULT codes that a command can produce (rule R37). Codes 6 and 7 are never produced. -/
inductive ResultCode where
  | none
  | ok
  | tagLengthError
  | authenticationFail
  | lengthError
  | illegalCommand
  deriving DecidableEq, Repr

/-- A bus response (rule R95): ERR and RDATA. -/
structure BusResponse where
  err : Bool
  rdata : Word
  deriving DecidableEq, Repr

/-- One event of the total order of events that the block's state follows (rule R66): a bus transaction that the host
issues, the turn of the engine, or one assertion and release of `rst` (rule R260). -/
inductive Event where
  /-- The host issues this bus request (rules R51, R95). -/
  | host (req : Request)
  /-- The engine takes its step, if a command is latched (rule R38). -/
  | engine
  /-- `rst` is asserted and released (rule R260). -/
  | rst
  deriving DecidableEq, Repr

/-- The architectural state (rule R21), and three fields of the model's own: the capacities (`params`), what is still
to happen (`events`) and the response of the bus port (`resp`). -/
structure State where
  /-- S, the 293-cell register, hidden (rules R22, R41). -/
  nfsr : Nfsr
  /-- PENDING, the latched command, hidden; STATUS.BUSY is `pending ≠ none` (rules R26, R38). -/
  pending : Option Command
  /-- STATUS.DONE (rule R26). -/
  done : Bool
  /-- STATUS.RESULT (rules R26, R37). -/
  result : ResultCode
  /-- IRQ_EN.IE (rule R31). -/
  ie : Bool
  /-- CLKCNT (rule R32). -/
  clkcnt : Word
  /-- AAD_LEN.LEN (rule R33). -/
  aadLen : BitVec 16
  /-- MSG_LEN.LEN (rule R34). -/
  msgLen : BitVec 16
  /-- TAG_LEN.LEN (rule R35). -/
  tagLen : BitVec 8
  /-- KEY (rule R27). -/
  key : Bytes16
  /-- IV (rule R28). -/
  iv : Bytes16
  /-- TAG_IN (rule R29). -/
  tagIn : Bytes16
  /-- TAG_OUT (rule R30). -/
  tagOut : Bytes16
  /-- AAD, MSG_IN and MSG_OUT (rule R36). -/
  mem : Memory
  /-- The model's own: the capacities AAD_CAP and MSG_CAP of this instance (rule R7). No step changes them. -/
  params : Config.Params
  /-- The model's own: the events still to come, the next one first (rule R66). -/
  events : List Event
  /-- The model's own: the bus port's response to the transaction the last step served, `none` when it served none
  (rules R52, R95). -/
  resp : Option BusResponse
  deriving DecidableEq, Repr

/-- The reasons a step can stop with a fault: there are none. Every input combination of the block has exactly one
result (rule R135); a bus error is a response and changes no state (rule R231), and an error of a command is a RESULT
code (rule R230), so each is a next state. Safe and unsafe do not arise. -/
inductive Fault where
  deriving DecidableEq, Repr

/-- The reasons a step can be refused. -/
inductive Refusal where
  /-- An instruction that has no meaning in the model, by its mnemonic. No arm of `exec` raises it: every row of the
  opcode table has its meaning. Safe: a stop proves nothing false. -/
  | notModelled (mnemonic : String)
  deriving DecidableEq, Repr

/-- The state after reset of an instance with the given capacities, with the given events to come: every register,
buffer and cell is 0, PENDING is none and STATUS is 0 (rules R42, R260). -/
def State.resetWith (p : Config.Params) (events : List Event) : State where
  nfsr := 0#293
  pending := none
  done := false
  result := .none
  ie := false
  clkcnt := 0#32
  aadLen := 0#16
  msgLen := 0#16
  tagLen := 0#8
  key := Vector.replicate 16 0#8
  iv := Vector.replicate 16 0#8
  tagIn := Vector.replicate 16 0#8
  tagOut := Vector.replicate 16 0#8
  mem := []
  params := p
  events := events
  resp := none

/-- The machine right after reset (rule R42), with the default capacities of rule R7 and nothing to come. -/
def State.reset : State := State.resetWith Config.Params.standard []

end Sys2Proof.Machine
end

