-- ==== Sys2Proof/Machine/Ops.lean ====
section
/-! DEFINITION. The shared operations: bits and byte lanes (spec/00_scope.md rule R9, spec/20_memory.md rule R54), the
16-byte arrays, the buffers' memory, and what a command's acceptance, refusal, completion and acknowledgement do to the
state (spec/43_host_commands.md rules R201, R202; spec/60_exceptions.md rules R236, R240). -/

namespace Sys2Proof.Machine

/-! ### Bits and byte lanes -/

/-- `bit(v, i)` of a byte (rule R9). -/
def bit (v : Byte) (i : Nat) : Bool := v.getLsbD i

/-- `v[i] <- b` of a byte (rules R150, R151). -/
def setBit (v : Byte) (i : Nat) (b : Bool) : Byte :=
  bif b then v ||| BitVec.twoPow 8 i else v &&& ~~~(BitVec.twoPow 8 i)

/-- Byte lane `k` of a bus word: bits `[8k+7:8k]` (rules R54, R93). -/
def byteLane (v : Word) (k : Nat) : Byte := v.extractLsb' (8 * k) 8

/-- The bus word whose lanes are the bytes of the list, the first in bits 7:0, the lanes above them 0
(rules R54, R93). -/
def joinLanes : List Byte → Word
  | [] => 0
  | b :: bs => b.setWidth 32 ||| (joinLanes bs <<< 8)

/-! ### The 16-byte arrays (rules R27 to R30) -/

/-- Sixteen zero bytes. -/
def Bytes16.zero : Bytes16 := Vector.replicate 16 0#8

/-- Byte `j` of an array. -/
def Bytes16.read (v : Bytes16) (j : Nat) : Byte := v[j]?.getD 0

/-- The array with byte `j` replaced. -/
def Bytes16.write (v : Bytes16) (j : Nat) (b : Byte) : Bytes16 := v.setIfInBounds j b

/-! ### The buffers' memory (rules R36, R55) -/

/-- The offset of `AAD[0]` (rule R55). -/
def aadBase : Nat := 0x1000
/-- The offset of `MSG_IN[0]` (rule R55). -/
def msgInBase : Nat := 0x2000
/-- The offset of `MSG_OUT[0]` (rule R55). -/
def msgOutBase : Nat := 0x3000

/-- What a buffer byte that is not listed holds: the reset value of every buffer byte (rules R36, R42). -/
def Memory.unlisted : Byte := 0#8

/-- The byte at an offset. -/
def Memory.read : Memory → Nat → Byte
  | [], _ => Memory.unlisted
  | (b, w) :: rest, a => if a = b then w else Memory.read rest a

/-- The memory with one byte replaced; the canonical form is kept. -/
def Memory.write : Memory → Nat → Byte → Memory
  | [], a, v => if v = Memory.unlisted then [] else [(a, v)]
  | (b, w) :: rest, a, v =>
    if a < b then (if v = Memory.unlisted then (b, w) :: rest else (a, v) :: (b, w) :: rest)
    else if a = b then (if v = Memory.unlisted then rest else (a, v) :: rest)
    else (b, w) :: Memory.write rest a v

/-- The bytes of the list stored one after the other from `a` on. -/
def Memory.writeList : Memory → Nat → List Byte → Memory
  | m, _, [] => m
  | m, a, b :: bs => Memory.writeList (m.write a b) (a + 1) bs

/-- The `n` bytes from `a` on. -/
def Memory.readList (m : Memory) (a n : Nat) : List Byte := (List.range n).map fun j => m.read (a + j)

/-- The memory with the `n` bytes from `a` on set to 0. -/
def Memory.zeroRange (m : Memory) (a n : Nat) : Memory := m.filter fun c => !(decide (a ≤ c.1 ∧ c.1 < a + n))

/-- Offsets strictly rising from `lo` on, and no listed byte equal to an unlisted one. -/
def Memory.wfFrom : Nat → Memory → Bool
  | _, [] => true
  | lo, (a, v) :: rest => decide (lo ≤ a) && decide (v ≠ Memory.unlisted) && Memory.wfFrom (a + 1) rest

/-- The canonical form: equal contents are equal lists. -/
def Memory.wf (m : Memory) : Bool := Memory.wfFrom 0 m

/-! ### The state -/

/-- STATUS.BUSY (rule R26). -/
def State.busy (s : State) : Bool := s.pending.isSome

/-- The bus port answers a transaction (rule R52). -/
def State.respond (s : State) (r : BusResponse) : State := { s with resp := some r }

/-- The response of a read that is served: ERR = 0 and the data (rule R95). -/
def BusResponse.data (v : Word) : BusResponse := ⟨false, v⟩

/-- The response of a write that is served: ERR = 0, RDATA = 0 (rule R95). -/
def BusResponse.ok : BusResponse := ⟨false, 0⟩

/-- BusError: ERR = 1, RDATA = 0 (rules R95, R231). -/
def BusResponse.busError : BusResponse := ⟨true, 0⟩

/-- `Accept(op)` (rule R201): latch the command, clear DONE, RESULT, CLKCNT, TAG_OUT and all of MSG_OUT. -/
def State.accept (s : State) (op : Command) : State :=
  { s with
    pending := some op
    done := false
    result := .none
    clkcnt := 0
    tagOut := Bytes16.zero
    mem := s.mem.zeroRange msgOutBase s.params.msgCap }

/-- `Refuse()` (rule R202): an illegal command word completes at once. -/
def State.refuse (s : State) : State := { s with done := true, result := .illegalCommand }

/-- `complete(code)` (rule R236), which ends every engine step: zeroize S, release PENDING, record the code, set DONE. -/
def State.complete (s : State) (code : ResultCode) : State :=
  { s with nfsr := 0, pending := none, result := code, done := true }

/-- The acknowledgement of a completion: clear DONE, keep RESULT (rules R26, R240). -/
def State.acknowledge (s : State) : State := { s with done := false }

/-- `AAD[0..AAD_LEN)` (rule R36). -/
def State.aadBytes (s : State) : List Byte := s.mem.readList aadBase s.aadLen.toNat

/-- `MSG_IN[0..MSG_LEN)` (rule R36). -/
def State.msgBytes (s : State) : List Byte := s.mem.readList msgInBase s.msgLen.toNat

end Sys2Proof.Machine
end

