-- ==== Sys2Proof/Machine/Flags.lean ====
section
/-! DEFINITION. The STATUS fields and the interrupt line (spec/10_state.md rules R26, R37, R39). The block has no
arithmetic flags: its arithmetic is XOR and AND of single bits (spec/40_register_core.md rule R134). -/

namespace Sys2Proof.Machine

/-- The number of a RESULT code (rule R37). -/
def ResultCode.code : ResultCode → BitVec 3
  | .none => 0
  | .ok => 1
  | .tagLengthError => 2
  | .authenticationFail => 3
  | .lengthError => 4
  | .illegalCommand => 5

/-- The word STATUS reads as: BUSY at bit 0, DONE at bit 1, RESULT at bits 6:4, all else 0 (rules R26, R60). -/
def State.statusWord (s : State) : Word :=
  (s.result.code ++ 0#2 ++ BitVec.ofBool s.done ++ BitVec.ofBool s.busy).setWidth 32

/-- A write of STATUS: bit 1 = 1 clears DONE, every other bit is ignored (rules R26, R61). -/
def State.writeStatus (s : State) (v : Word) : State := if v.getLsbD 1 then s.acknowledge else s

/-- The level of the interrupt output (rules R39, R238). -/
def State.irq (s : State) : Bool := s.done && s.ie

end Sys2Proof.Machine
end

