-- ==== Sys2Proof/Machine/RegisterCore.lean ====
section
/-! DEFINITION. The Boolean taps and the register core (spec/40_register_core.md): `maj`, `ch`, `ksg`, `fbk`, the linear
diffusion and the clock. A bit is a `Bool`, so `¬` is the one-bit complement (spec/00_scope.md rule R10). -/

namespace Sys2Proof.Machine

/-- Majority of three bits (rule R120). -/
def maj (x y z : Bool) : Bool := (x && y) ^^ (x && z) ^^ (y && z)

/-- Conditional select (rule R121). -/
def ch (x y z : Bool) : Bool := (x && y) ^^ ((!x) && z)

/-- The keystream bit of a state (rule R123). -/
def ksg (s : Nfsr) : Bool :=
  s.getLsbD 12 ^^ s.getLsbD 154 ^^ maj (s.getLsbD 235) (s.getLsbD 61) (s.getLsbD 193)

/-- The feedback bit of a state under the control bits (rule R124). -/
def feedback (s : Nfsr) (ca cb : Bool) : Bool :=
  s.getLsbD 0 ^^ (!s.getLsbD 107) ^^ maj (s.getLsbD 244) (s.getLsbD 23) (s.getLsbD 160)
    ^^ ch (s.getLsbD 230) (s.getLsbD 111) (s.getLsbD 66) ^^ (ca && s.getLsbD 196) ^^ (cb && ksg s)

/-- `fbk(s, ca, cb)`: the pair `(f, ks)` (rule R124). -/
def fbk (s : Nfsr) (ca cb : Bool) : Bool × Bool := (feedback s ca cb, ksg s)

/-- `T[i] <- T[i] ⊕ b`. -/
def xorCell (t : Nfsr) (i : Nat) (b : Bool) : Nfsr := bif b then t ^^^ BitVec.twoPow 293 i else t

/-- The linear diffusion: six updates in place, in the listed order (rule R125). -/
def diffuse (s : Nfsr) : Nfsr :=
  let t := xorCell s 289 (s.getLsbD 235 ^^ s.getLsbD 230)
  let t := xorCell t 230 (t.getLsbD 196 ^^ t.getLsbD 193)
  let t := xorCell t 193 (t.getLsbD 160 ^^ t.getLsbD 154)
  let t := xorCell t 154 (t.getLsbD 111 ^^ t.getLsbD 107)
  let t := xorCell t 107 (t.getLsbD 66 ^^ t.getLsbD 61)
  xorCell t 61 (t.getLsbD 23 ^^ t.getLsbD 0)

/-- The direction of a clock (rule R128). -/
inductive Direction where
  | enc
  | dec
  deriving DecidableEq, Repr

/-- The plaintext bit of a clock, which is the bit injected: the input bit in ENC, the keystream bit XOR the input bit
in DEC (rules R129, R130). -/
def plainBit (dir : Direction) (ks b : Bool) : Bool :=
  match dir with
  | .enc => b
  | .dec => ks ^^ b

/-- The output bit of a clock: keystream bit XOR input bit, in both directions (rules R129, R130). -/
def outBit (ks b : Bool) : Bool := ks ^^ b

/-- The register after a clock, from the diffused register `t`: every cell moves one place toward index 0 and the top
cell is the feedback bit XOR the plaintext bit (rule R128). The shift leaves cell 292 at 0. -/
def shiftIn (t : Nfsr) (fp : Bool) : Nfsr := xorCell (t >>> 1) 292 fp

/-- `clock(S, dir, b, ca, cb) -> (S', out, ks)`: taps are read after the diffusion and before the shift
(rules R127, R128). -/
def clock (s : Nfsr) (dir : Direction) (b ca cb : Bool) : Nfsr × Bool × Bool :=
  let t := diffuse s
  let f := (fbk t ca cb).1
  let ks := (fbk t ca cb).2
  (shiftIn t (f ^^ plainBit dir ks b), outBit ks b, ks)

end Sys2Proof.Machine
end

