-- ==== Sys2Proof/Machine/ByteAdapter.lean ====
section
/-! DEFINITION. A session of the engine and the byte adapter (spec/41_byte_adapter.md). A session is the register and the
running clock count, the sequencer state that exists only inside an engine step (spec/10_state.md rule R40). -/

namespace Sys2Proof.Machine

/-- The register and the running count of clocks within one engine step (rules R40, R128). -/
structure Session where
  reg : Nfsr
  clocks : Nat
  deriving DecidableEq, Repr

/-- One clock of a session; it adds 1 to the running clock count (rules R128, R209). Answers the session, the output
bit and the keystream bit. -/
def Session.clock (ss : Session) (dir : Direction) (b ca cb : Bool) : Session × Bool × Bool :=
  let r := Machine.clock ss.reg dir b ca cb
  (⟨r.1, ss.clocks + 1⟩, r.2.1, r.2.2)

/-- `k ss`, with the register and the count of `ss` computed to numerals first when the kernel evaluates it
(`Session.settle_eq`, Laws/Session.lean): only the order of evaluation differs. -/
def Session.settle {α : Type} (ss : Session) (k : Session → α) : α :=
  match ss.reg.toNat, ss.clocks with
  | 0, 0 => k ⟨0, 0⟩
  | n + 1, 0 => k ⟨BitVec.ofNat 293 (n + 1), 0⟩
  | 0, c + 1 => k ⟨0, c + 1⟩
  | n + 1, c + 1 => k ⟨BitVec.ofNat 293 (n + 1), c + 1⟩

/-- A phase whose outputs are discarded: one step `f` of the phase for each item. -/
def Session.fold {α : Type} (f : Session → α → Session) : Session → List α → Session
  | ss, [] => ss
  | ss, x :: xs => (f ss x).settle fun ss => Session.fold f ss xs

/-- A phase whose outputs are kept, in call order: one step `f` of the phase for each item. -/
def Session.collect {α β : Type} (f : Session → α → Session × β) : Session → List α → Session × List β
  | ss, [] => (ss, [])
  | ss, x :: xs =>
    let r := f ss x
    let rest := r.1.settle fun ss => Session.collect f ss xs
    (rest.1, r.2 :: rest.2)

/-- One turn of the loop of rules R150 and R151: clock `i` uses bit `i` of the input and mask bytes and writes bit `i`
of the output and keystream bytes (rule R152). -/
def byteClock (dir : Direction) (x ca cb : Byte) (acc : Session × Byte × Byte) (i : Nat) : Session × Byte × Byte :=
  let r := acc.1.clock dir (bit x i) (bit ca i) (bit cb i)
  (r.1, setBit acc.2.1 i r.2.1, setBit acc.2.2 i r.2.2)

/-- `encryptByte(S, m, caByte, cbByte) -> (S', c, k)`: eight encrypt-clocks, least significant bit first (rule R150). -/
def encryptByte (ss : Session) (m ca cb : Byte) : Session × Byte × Byte :=
  (List.range 8).foldl (byteClock .enc m ca cb) (ss, 0, 0)

/-- `decryptByte(S, c, caByte, cbByte) -> (S', p)`: eight decrypt-clocks; the keystream byte is no output
(rule R151). -/
def decryptByte (ss : Session) (c ca cb : Byte) : Session × Byte :=
  let r := (List.range 8).foldl (byteClock .dec c ca cb) (ss, 0, 0)
  (r.1, r.2.1)

end Sys2Proof.Machine
end

