-- ==== Sys2Proof/Machine/Orchestrator.lean ====
section
/-! DEFINITION. The AEAD orchestrator (spec/42_aead_orchestrator.md): the six phases, their control constants
(spec/30_encoding.md rule R100), the two composite operations and the tag comparator (spec/43_host_commands.md R214). -/

namespace Sys2Proof.Machine

/-! ### Constants (rule R6) -/

/-- INIT_CLOCKS. -/
def initClocks : Nat := 1536
/-- PAD_BYTES. -/
def padBytes : Nat := 8
/-- PAD_CA_BYTES. -/
def padCaBytes : Nat := 4
/-- FIN_BYTES. -/
def finBytes : Nat := 64
/-- FIN_DISCARD_BYTES. -/
def finDiscardBytes : Nat := 48

/-! ### Phase control constants (rule R100) -/

/-- The mask bytes of one byte-adapter call. -/
structure Masks where
  ca : Byte
  cb : Byte
  deriving DecidableEq, Repr

/-- CFG_AAD. -/
def cfgAad : Masks := ⟨0xff, 0xff⟩
/-- CFG_PAD_AAD[i], its masks. -/
def cfgPadAad (i : Nat) : Masks := ⟨if i < padCaBytes then 0xff else 0x00, 0xff⟩
/-- CFG_MSG_ENC and CFG_MSG_DEC, their masks. -/
def cfgMsg : Masks := ⟨0xff, 0x00⟩
/-- CFG_PAD_MSG[i], its masks. -/
def cfgPadMsg (i : Nat) : Masks := ⟨if i < padCaBytes then 0xff else 0x00, 0x00⟩
/-- CFG_FINAL. -/
def cfgFinal : Masks := ⟨0xff, 0xff⟩
/-- The input byte of call `i` of either pad: 0x01 at index 0, else 0x00. -/
def padInput (i : Nat) : Byte := if i = 0 then 0x01 else 0x00

/-! ### The phases -/

/-- Bit `i` of the 128-bit number whose byte `j` is byte `j` of the array: byte `i / 8`, bit `i mod 8` (rules R27, R28,
R74). -/
def Bytes16.bitAt (v : Bytes16) (i : Nat) : Bool := bit (v.read (i / 8)) (i % 8)

/-- Bit `m[i]` of the initialization sequence: the 128 key bits, the 128 IV bits, a 1, then zeros (rule R173). -/
def initBit (key iv : Bytes16) (i : Nat) : Bool :=
  if i < 128 then key.bitAt i
  else if i < 256 then iv.bitAt (i - 128)
  else decide (i = 256)

/-- The session before the first clock: every cell 0, no clock performed (rule R172, decision D3). -/
def Session.start : Session := ⟨0, 0⟩

/-- Init: the all-zero register, then 1536 encrypt-clocks with `ca = cb = 1`, outputs discarded (rule R172). -/
def phaseInit (key iv : Bytes16) : Session :=
  Session.fold (fun ss i => (ss.clock .enc (initBit key iv i) true true).1) Session.start (List.range initClocks)

/-- AbsorbAAD (rule R175). -/
def absorbAad (ss : Session) (aad : List Byte) : Session :=
  Session.fold (fun ss a => (encryptByte ss a cfgAad.ca cfgAad.cb).1) ss aad

/-- One of the two pads: 8 calls of encryptByte under the given masks, outputs discarded (rules R176, R179). -/
def pad (cfg : Nat → Masks) (ss : Session) : Session :=
  Session.fold (fun ss i => (encryptByte ss (padInput i) (cfg i).ca (cfg i).cb).1) ss (List.range padBytes)

/-- PadAfterAAD (rule R176). -/
def padAfterAad (ss : Session) : Session := pad cfgPadAad ss

/-- Process, encrypt direction: the ciphertext bytes in order (rule R177). -/
def processEnc (ss : Session) (msg : List Byte) : Session × List Byte :=
  Session.collect (fun ss m => let r := encryptByte ss m cfgMsg.ca cfgMsg.cb; (r.1, r.2.1)) ss msg

/-- Process, decrypt direction: the candidate plaintext bytes in order (rule R178). -/
def processDec (ss : Session) (ct : List Byte) : Session × List Byte :=
  Session.collect (fun ss c => decryptByte ss c cfgMsg.ca cfgMsg.cb) ss ct

/-- PadAfterMessage (rule R179). -/
def padAfterMsg (ss : Session) : Session := pad cfgPadMsg ss

/-- The array whose byte `k` is entry `k` of the list. -/
def Bytes16.ofList (l : List Byte) : Bytes16 :=
  (List.range 16).foldl (fun v k => v.write k (l.getD k 0)) Bytes16.zero

/-- Finalize: 64 calls of encryptByte on zero bytes; tag byte `k` is the keystream byte of call `48 + k`
(rule R180). -/
def finalize (ss : Session) : Session × Bytes16 :=
  let r := Session.collect
    (fun ss _ => let q := encryptByte ss 0x00 cfgFinal.ca cfgFinal.cb; (q.1, q.2.2)) ss (List.range finBytes)
  (r.1, Bytes16.ofList (r.2.drop finDiscardBytes))

/-! ### The composite operations -/

/-- What a run of all six phases yields: the output bytes of Process, the tag, and the number of clocks performed. -/
structure AeadResult where
  out : List Byte
  tag : Bytes16
  clocks : Nat
  deriving DecidableEq, Repr

/-- The phases before Process: Init, AbsorbAAD, PadAfterAAD (rule R170). -/
def aeadBegin (key iv : Bytes16) (aad : List Byte) : Session := padAfterAad (absorbAad (phaseInit key iv) aad)

/-- The phases after Process: PadAfterMessage and Finalize (rule R170). -/
def aeadEnd (r : Session × List Byte) : AeadResult :=
  let f := finalize (padAfterMsg r.1)
  ⟨r.2, f.2, f.1.clocks⟩

/-- AeadEncrypt: ciphertext, tag and clock count (rule R181). -/
def aeadEncrypt (key iv : Bytes16) (aad msg : List Byte) : AeadResult :=
  aeadEnd (processEnc (aeadBegin key iv aad) msg)

/-- AeadDecrypt: candidate plaintext, recomputed tag and clock count (rule R182). Only Process runs in the decrypt
direction (rule R100). -/
def aeadDecrypt (key iv : Bytes16) (aad ct : List Byte) : AeadResult :=
  aeadEnd (processDec (aeadBegin key iv aad) ct)

/-- `CtEq(a, b)`: the XOR-OR of all sixteen byte pairs is zero; every byte is examined (rule R214). -/
def ctEq (a b : Bytes16) : Bool :=
  decide ((List.range 16).foldl (fun d k => d ||| (a.read k ^^^ b.read k)) 0#8 = 0)

end Sys2Proof.Machine
end

