-- ==== Sys2Proof/Machine/Engine.lean ====
section
/-! DEFINITION. The commands (spec/43_host_commands.md). ENCRYPT, DECRYPT and CLEAR are the engine's atomic step on the
command latched in PENDING (rules R38, R203 to R205); NOP changes nothing (rule R207). How a CMD write latches a
command stands in Machine/Operands.lean. -/

namespace Sys2Proof.Machine

/-- `LengthOK` (rule R206). -/
def State.lengthOk (s : State) : Bool :=
  decide (s.aadLen.toNat ≤ s.params.aadCap) && decide (s.msgLen.toNat ≤ s.params.msgCap)

/-- `MSG_OUT[j] <- out[j]` for every byte of the list (rules R203, R204). -/
def State.writeMsgOut (s : State) (out : List Byte) : State := { s with mem := s.mem.writeList msgOutBase out }

/-- `CLKCNT <- n` (rules R203, R204, R209). -/
def State.setClkcnt (s : State) (n : Nat) : State := { s with clkcnt := BitVec.ofNat 32 n }

/-- `TAG_OUT[k] <- tag[k]` (rule R203). -/
def State.setTagOut (s : State) (tag : Bytes16) : State := { s with tagOut := tag }

/-- `AeadEncrypt` on the registers and buffers (rule R203). -/
def State.runEncrypt (s : State) : AeadResult := aeadEncrypt s.key s.iv s.aadBytes s.msgBytes

/-- `AeadDecrypt` on the registers and buffers (rule R204). -/
def State.runDecrypt (s : State) : AeadResult := aeadDecrypt s.key s.iv s.aadBytes s.msgBytes

/-- `EngineEncrypt` (rule R203). -/
def engineEncrypt (s : State) : State :=
  if s.lengthOk then
    let r := s.runEncrypt
    (((s.writeMsgOut r.out).setTagOut r.tag).setClkcnt r.clocks).complete .ok
  else s.complete .lengthError

/-- `EngineDecrypt` (rules R204, R210, R215, R241): tag length, then lengths, then the tags. The candidate plaintext
reaches MSG_OUT only when the tags agree; the recomputed tag reaches nothing. -/
def engineDecrypt (s : State) : State :=
  if s.tagLen ≠ 16 then s.complete .tagLengthError
  else if s.lengthOk then
    let r := s.runDecrypt
    if ctEq r.tag s.tagIn then ((s.setClkcnt r.clocks).writeMsgOut r.out).complete .ok
    else (s.setClkcnt r.clocks).complete .authenticationFail
  else s.complete .lengthError

/-- All bytes of AAD, MSG_IN and MSG_OUT set to 0 (rule R205). -/
def State.zeroBuffers (s : State) : Memory :=
  ((s.mem.zeroRange aadBase s.params.aadCap).zeroRange msgInBase s.params.msgCap).zeroRange msgOutBase s.params.msgCap

/-- `EngineClear` (rule R205): everything but IRQ_EN. -/
def engineClear (s : State) : State :=
  ({ s with
     key := Bytes16.zero
     iv := Bytes16.zero
     tagIn := Bytes16.zero
     tagOut := Bytes16.zero
     mem := s.zeroBuffers
     aadLen := 0
     msgLen := 0
     tagLen := 0
     clkcnt := 0 } : State).complete .ok

/-- What NOP does: no state changes (rule R207). -/
def State.noOperation (s : State) : State := s

/-! ### The meanings -/

/-- NOP (rule R207). -/
def execNop (s : State) : Host.Outcome State Fault Refusal := .next s.noOperation

/-- ENCRYPT: the engine step (rule R203). -/
def execEncrypt (s : State) : Host.Outcome State Fault Refusal := .next (engineEncrypt s)

/-- DECRYPT: the engine step (rule R204). -/
def execDecrypt (s : State) : Host.Outcome State Fault Refusal := .next (engineDecrypt s)

/-- CLEAR: the engine step (rule R205). -/
def execClear (s : State) : Host.Outcome State Fault Refusal := .next (engineClear s)

end Sys2Proof.Machine
end

