-- ==== Sys2Proof/Machine/Operands.lean ====
section
/-! DEFINITION. The address map and the two operand forms of a bus transaction, the read and the write
(spec/20_memory.md), with the CMD write (spec/43_host_commands.md rule R200). -/

namespace Sys2Proof.Machine

/-! ### The address map (rule R55) -/

/-- The rows of the address map. -/
inductive Row where
  | cmd
  | status
  | irqEn
  | clkcnt
  | aadLen
  | msgLen
  | tagLen
  | key
  | iv
  | tagIn
  | tagOut
  | aad
  | msgIn
  | msgOut
  deriving DecidableEq, Repr

/-- Every row, in the order of the map. -/
def Row.all : List Row :=
  [.cmd, .status, .irqEn, .clkcnt, .aadLen, .msgLen, .tagLen, .key, .iv, .tagIn, .tagOut, .aad, .msgIn, .msgOut]

/-- The first offset of a row (rule R55). -/
def Row.base : Row → Nat
  | .cmd => 0x0000
  | .status => 0x0004
  | .irqEn => 0x0008
  | .clkcnt => 0x000C
  | .aadLen => 0x0010
  | .msgLen => 0x0014
  | .tagLen => 0x0018
  | .key => 0x0020
  | .iv => 0x0030
  | .tagIn => 0x0040
  | .tagOut => 0x0050
  | .aad => aadBase
  | .msgIn => msgInBase
  | .msgOut => msgOutBase

/-- The number of bytes of a row (rule R55). -/
def Row.size (p : Config.Params) : Row → Nat
  | .cmd => 4
  | .status => 4
  | .irqEn => 4
  | .clkcnt => 4
  | .aadLen => 4
  | .msgLen => 4
  | .tagLen => 4
  | .key => 16
  | .iv => 16
  | .tagIn => 16
  | .tagOut => 16
  | .aad => p.aadCap
  | .msgIn => p.msgCap
  | .msgOut => p.msgCap

/-- The rows that take 4-byte accesses only (rule R57). -/
def Row.wordOnly : Row → Bool
  | .cmd => true
  | .status => true
  | .irqEn => true
  | .clkcnt => true
  | .aadLen => true
  | .msgLen => true
  | .tagLen => true
  | .key => false
  | .iv => false
  | .tagIn => false
  | .tagOut => false
  | .aad => false
  | .msgIn => false
  | .msgOut => false

/-- The offset lies in the row. -/
def Row.holds (p : Config.Params) (r : Row) (a : Nat) : Bool := decide (r.base ≤ a) && decide (a < r.base + r.size p)

/-- The row an offset lies in; none where the offset is unmapped (rule R55). -/
def rowAt (p : Config.Params) (a : Nat) : Option Row := Row.all.find? fun r => r.holds p a

/-- The row that an access of `n` bytes at `off` is served by; none where it ends with BusError. In this order: it must
be aligned (rule R58), all its bytes must lie in one mapped row (rule R56), and a 4-byte-only register takes only
4-byte accesses (rule R57). BUSY plays no part (rules R60, R61, R231). -/
def accessRow (p : Config.Params) (off n : Nat) : Option Row :=
  if off % n ≠ 0 then none
  else
    match rowAt p off with
    | none => none
    | some r =>
      if (List.range n).all fun k => r.holds p (off + k) then
        if r.wordOnly && decide (n ≠ 4) then none else some r
      else none

/-! ### Reads (rule R60) -/

/-- `RegRead`: the word a 4-byte-only register reads as; CMD reads 0 (rules R25, R60). The other rows are read by
bytes. -/
def State.regRead (s : State) : Row → Word
  | .cmd => 0
  | .status => s.statusWord
  | .irqEn => (BitVec.ofBool s.ie).setWidth 32
  | .clkcnt => s.clkcnt
  | .aadLen => s.aadLen.setWidth 32
  | .msgLen => s.msgLen.setWidth 32
  | .tagLen => s.tagLen.setWidth 32
  | .key => 0
  | .iv => 0
  | .tagIn => 0
  | .tagOut => 0
  | .aad => 0
  | .msgIn => 0
  | .msgOut => 0

/-- `ByteRead` of byte `j` of a row; KEY is write-only and reads 0 (rules R27, R60). The registers are not read by
bytes. -/
def State.byteRead (s : State) (r : Row) (j : Nat) : Byte :=
  match r with
  | .iv => s.iv.read j
  | .tagIn => s.tagIn.read j
  | .tagOut => s.tagOut.read j
  | .aad => s.mem.read (aadBase + j)
  | .msgIn => s.mem.read (msgInBase + j)
  | .msgOut => s.mem.read (msgOutBase + j)
  | .key => 0
  | .cmd => 0
  | .status => 0
  | .irqEn => 0
  | .clkcnt => 0
  | .aadLen => 0
  | .msgLen => 0
  | .tagLen => 0

/-- The data of a read of `n` bytes at `off` served by row `r`, zero-extended to 32 bits (rules R54, R60, R93). -/
def State.rowRead (s : State) (r : Row) (off n : Nat) : Word :=
  if r.wordOnly then s.regRead r
  else joinLanes ((List.range n).map fun k => s.byteRead r (off + k - r.base))

/-- `MemRead(off, n)`; none is BusError (rule R60). -/
def State.memRead (s : State) (off n : Nat) : Option Word := (accessRow s.params off n).map fun r => s.rowRead r off n

/-! ### Writes (rule R61) -/

/-- `CommandWrite(v)` while BUSY = 0 (rule R200): an illegal word is refused, NOP does nothing, the others are
accepted. The last rows are instructions that `decodeCommand` never reads. -/
def State.commandWrite (s : State) (v : Word) : State :=
  match decodeCommand v with
  | .instr .nop => s.noOperation
  | .instr .encrypt => s.accept .encrypt
  | .instr .decrypt => s.accept .decrypt
  | .instr .clear => s.accept .clear
  | .illegalCommand => s.refuse
  | .reservedSize => s.refuse
  | .instr (.ld8 _ _) => s.refuse
  | .instr (.ld16 _ _) => s.refuse
  | .instr (.ld32 _ _) => s.refuse
  | .instr (.st8 _ _) => s.refuse
  | .instr (.st16 _ _) => s.refuse
  | .instr (.st32 _ _) => s.refuse

/-- `RegWrite` of a 4-byte-only register (rules R25, R26, R31 to R35, R61). CLKCNT is read-only. The other rows are
written by bytes. -/
def State.regWrite (s : State) (r : Row) (v : Word) : State :=
  match r with
  | .cmd => s.commandWrite v
  | .status => s.writeStatus v
  | .irqEn => { s with ie := v.getLsbD 0 }
  | .clkcnt => s
  | .aadLen => { s with aadLen := v.setWidth 16 }
  | .msgLen => { s with msgLen := v.setWidth 16 }
  | .tagLen => { s with tagLen := v.setWidth 8 }
  | .key => s
  | .iv => s
  | .tagIn => s
  | .tagOut => s
  | .aad => s
  | .msgIn => s
  | .msgOut => s

/-- `ByteWrite` of byte `j` of a row; TAG_OUT and MSG_OUT are read-only (rules R30, R36, R61). The registers are not
written by bytes. -/
def State.byteWrite (s : State) (r : Row) (j : Nat) (b : Byte) : State :=
  match r with
  | .key => { s with key := s.key.write j b }
  | .iv => { s with iv := s.iv.write j b }
  | .tagIn => { s with tagIn := s.tagIn.write j b }
  | .aad => { s with mem := s.mem.write (aadBase + j) b }
  | .msgIn => { s with mem := s.mem.write (msgInBase + j) b }
  | .tagOut => s
  | .msgOut => s
  | .cmd => s
  | .status => s
  | .irqEn => s
  | .clkcnt => s
  | .aadLen => s
  | .msgLen => s
  | .tagLen => s

/-- The write of `n` bytes at `off` served by row `r` while BUSY = 0 (rules R54, R61). -/
def State.rowWrite (s : State) (r : Row) (off n : Nat) (v : Word) : State :=
  if r.wordOnly then s.regWrite r v
  else (List.range n).foldl (fun s k => s.byteWrite r (off + k - r.base) (byteLane v k)) s

/-- `MemWrite(off, n, v)`; none is BusError. A well-formed write during the BUSY window is ignored (rules R61, R63). -/
def State.memWrite (s : State) (off n : Nat) (v : Word) : Option State :=
  (accessRow s.params off n).map fun r => if s.busy then s else s.rowWrite r off n v

end Sys2Proof.Machine
end

