-- ==== Sys2Proof/Machine/Bus.lean ====
section
/-! DEFINITION. The bus requests (spec/20_memory.md rules R51, R52, R60, R61). Each is one transaction, served whole
(rule R65), and gets exactly one response. BusError is a response: the transaction changes no state and the block goes
on (spec/60_exceptions.md rules R230, R231). -/

namespace Sys2Proof.Machine

/-- A read transaction of `n` bytes (rules R60, R62, R95). -/
def busLoad (n off : Nat) (s : State) : State :=
  match s.memRead off n with
  | some v => s.respond (.data v)
  | none => s.respond .busError

/-- A write transaction of `n` bytes (rules R61, R95). -/
def busStore (n off : Nat) (v : Word) (s : State) : State :=
  match s.memWrite off n v with
  | some s' => s'.respond .ok
  | none => s.respond .busError

/-- LD8 (rule R60). -/
def execLd8 (off : Nat) (s : State) : Host.Outcome State Fault Refusal := .next (busLoad 1 off s)

/-- LD16 (rule R60). -/
def execLd16 (off : Nat) (s : State) : Host.Outcome State Fault Refusal := .next (busLoad 2 off s)

/-- LD32 (rule R60). -/
def execLd32 (off : Nat) (s : State) : Host.Outcome State Fault Refusal := .next (busLoad 4 off s)

/-- ST8 (rule R61). -/
def execSt8 (off : Nat) (wdata : Word) (s : State) : Host.Outcome State Fault Refusal := .next (busStore 1 off wdata s)

/-- ST16 (rule R61). -/
def execSt16 (off : Nat) (wdata : Word) (s : State) : Host.Outcome State Fault Refusal := .next (busStore 2 off wdata s)

/-- ST32 (rule R61). -/
def execSt32 (off : Nat) (wdata : Word) (s : State) : Host.Outcome State Fault Refusal := .next (busStore 4 off wdata s)

end Sys2Proof.Machine
end

