-- ==== Sys2Proof/Machine/Dispatch.lean ====
section
/-! DEFINITION. The meaning of every instruction, one arm a row of spec/opcode_table.json. -/

namespace Sys2Proof.Machine

def exec (i : Instr) (s : State) : Host.Outcome State Fault Refusal :=
  match i with
  | .nop => Sys2Proof.Machine.execNop s
  | .encrypt => Sys2Proof.Machine.execEncrypt s
  | .decrypt => Sys2Proof.Machine.execDecrypt s
  | .clear => Sys2Proof.Machine.execClear s
  | .ld8 off _ => Sys2Proof.Machine.execLd8 off s
  | .ld16 off _ => Sys2Proof.Machine.execLd16 off s
  | .ld32 off _ => Sys2Proof.Machine.execLd32 off s
  | .st8 off wdata => Sys2Proof.Machine.execSt8 off wdata s
  | .st16 off wdata => Sys2Proof.Machine.execSt16 off wdata s
  | .st32 off wdata => Sys2Proof.Machine.execSt32 off wdata s

end Sys2Proof.Machine
end

