-- ==== Sys2Proof/Machine/Fetch.lean ====
section
/-! DEFINITION. What a step runs. The block has no program counter and fetches no instruction from a memory
(spec/10_state.md rule R24). Its two agents take their work from two places: the host's next bus transaction arrives at
the port, and the engine's command stands in PENDING (rules R20, R38). The order of these events is one total order
(spec/20_memory.md rule R66), held in `State.events`; once it is used up the engine takes its step, as the fairness of
spec/70_reset_and_hazards.md rule R280 requires. -/

namespace Sys2Proof.Machine

/-- The instruction that runs a latched command (rule R38). -/
def Command.instr : Command → Instr
  | .encrypt => .encrypt
  | .decrypt => .decrypt
  | .clear => .clear

/-- The engine's turn: the latched command, if there is one (rule R38). No transaction is served. -/
def engineFetch (s : State) : Option Instr × State := (s.pending.map Command.instr, { s with resp := none })

/-- The host's turn: the instruction its request decodes to; a request with SIZE = 3 ends with BusError (rule R97). -/
def hostFetch (req : Request) (s : State) : Option Instr × State :=
  match decode (.request req) with
  | .instr i => (some i, s)
  | .illegalCommand => (none, s.respond .busError)
  | .reservedSize => (none, s.respond .busError)

/-- The next instruction to run and the state it runs in; where there is none, the state after the step. -/
def fetch (s : State) : Option Instr × State :=
  match s.events with
  | [] => engineFetch s
  | .engine :: rest => engineFetch { s with events := rest }
  | .host req :: rest => hostFetch req { s with events := rest }
  | .rst :: rest => (none, State.resetWith s.params rest)

/-- The events before which a row's word is the next thing to run. -/
def placeRequest (req : Request) (s : State) : State := { s with events := .host req :: s.events }

/-- The command latched and the engine's turn next: ENCRYPT, DECRYPT and CLEAR run from PENDING (rule R38). -/
def placeCommand (op : Command) (s : State) : State := { s with pending := some op, events := .engine :: s.events }

/-- The 4-byte write of a command word to CMD, `CMD …` of rule R99. -/
def cmdRequest (v : Word) : Request := packRequest true 2 0 v

/-- A command word placed so that the next step runs it: from PENDING where a command is latched; as the CMD write that
carries it where none is (NOP, rule R207, and the illegal words, rule R202, take effect at the CMD write). -/
def placeCommandWord (v : Word) (s : State) : State :=
  match decodeCommand v with
  | .instr .encrypt => placeCommand .encrypt s
  | .instr .decrypt => placeCommand .decrypt s
  | .instr .clear => placeCommand .clear s
  | _ => placeRequest (cmdRequest v) s

/-- A row's word placed so that the next step runs it. -/
def placeWord (s : State) (nbits w : Nat) : State :=
  match codeWordOf nbits w with
  | some (.command v) => placeCommandWord v s
  | some (.request req) => placeRequest req s
  | none => s

end Sys2Proof.Machine
end

