-- ==== Sys2Proof/Machine/Step.lean ====
section
/-! DEFINITION. One step: one event of the total order of spec/20_memory.md rule R66, served whole (rule R65). -/

namespace Sys2Proof.Machine

/-- One step: run the instruction `fetch` gives in the state it gives; where it gives none, that state is the next. -/
def step (s : State) : Host.Outcome State Fault Refusal :=
  match fetch s with
  | (some i, s') => exec i s'
  | (none, s') => .next s'

/-- The state with a row's word placed where the next step takes its work from: a bus request as the host's next
transaction, a command word in PENDING with the engine's turn next. -/
def State.withFetchWord (s : State) (nbits w : Nat) : State := placeWord s nbits w

end Sys2Proof.Machine
end

