-- ==== Sys2Proof/Safety.lean ====
section
/-! DEFINITION. What counts as a safe state of the block, and the words the claims use: the invariant that every step
keeps, the host's and the engine's view of one byte of the window, and which accesses the bus serves. -/

namespace Sys2Proof.Machine

/-! ### The invariant -/

/-- The offset is a byte of one of the three buffers (rule R55). -/
def bufferByte (p : Config.Params) (a : Nat) : Bool :=
  decide (0x1000 ≤ a ∧ a < 0x1000 + p.aadCap) || decide (0x2000 ≤ a ∧ a < 0x2000 + p.msgCap)
    || decide (0x3000 ≤ a ∧ a < 0x3000 + p.msgCap)

/-- Every listed byte of the memory is a byte of a buffer. -/
def Memory.inBuffers (m : Memory) (p : Config.Params) : Bool := m.all fun c => bufferByte p c.1

/-- TAG_OUT and all of MSG_OUT read 0. -/
def State.OutputsZero (s : State) : Prop :=
  s.tagOut = Bytes16.zero ∧ ∀ j, j < s.params.msgCap → s.mem.read (0x3000 + j) = 0

/-- The invariant of the block. -/
structure State.Inv (s : State) : Prop where
  /-- The capacities are in the range of rule R7. -/
  capacities : s.params.valid = true
  /-- The memory is in its canonical form. -/
  canonical : s.mem.wf = true
  /-- Only buffer bytes are listed. -/
  buffersOnly : s.mem.inBuffers s.params = true
  /-- Between steps every cell of S is 0 (rules R41, R42). -/
  registerZero : s.nfsr = 0
  /-- While BUSY = 1, STATUS reads DONE = 0 and RESULT = NONE (rule R64). -/
  busyQuiet : s.busy = true → s.done = false ∧ s.result = .none
  /-- DONE is set only together with a result (rules R202, R236). -/
  doneHasResult : s.done = true → s.result ≠ .none
  /-- Outputs stand only beside OK, or beside the ILLEGAL_COMMAND that overwrote it (rules R64, R202, R204, R215). -/
  outputsWithheld : s.result ≠ .ok → s.result ≠ .illegalCommand → s.OutputsZero
  /-- No clock is counted where none was performed (rules R32, R209). -/
  countZero : s.result = .none ∨ s.result = .tagLengthError ∨ s.result = .lengthError → s.clkcnt = 0
  /-- The largest count any command produces (rule R32). -/
  countBound : s.clkcnt.toNat ≤ 67712

/-! ### Bytes of the window -/

/-- The byte stored at an offset of an array or a buffer, as the engine sees it (rules R27 to R30, R36, R55). -/
def State.storedByte (s : State) (a : Nat) : Byte :=
  if 0x20 ≤ a ∧ a < 0x30 then s.key.read (a - 0x20)
  else if 0x30 ≤ a ∧ a < 0x40 then s.iv.read (a - 0x30)
  else if 0x40 ≤ a ∧ a < 0x50 then s.tagIn.read (a - 0x40)
  else if 0x50 ≤ a ∧ a < 0x60 then s.tagOut.read (a - 0x50)
  else s.mem.read a

/-- The byte a host read sees there: KEY is write-only and reads 0 (rules R27, R60). -/
def State.hostByte (s : State) (a : Nat) : Byte := if 0x20 ≤ a ∧ a < 0x30 then 0 else s.storedByte a

/-- The `n` bytes from `off` on lie within one of the arrays or buffers (rules R55, R56). -/
def bytesMapped (p : Config.Params) (off n : Nat) : Prop :=
  (0x20 ≤ off ∧ off + n ≤ 0x30) ∨ (0x30 ≤ off ∧ off + n ≤ 0x40) ∨ (0x40 ≤ off ∧ off + n ≤ 0x50)
    ∨ (0x50 ≤ off ∧ off + n ≤ 0x60) ∨ (0x1000 ≤ off ∧ off + n ≤ 0x1000 + p.aadCap)
    ∨ (0x2000 ≤ off ∧ off + n ≤ 0x2000 + p.msgCap) ∨ (0x3000 ≤ off ∧ off + n ≤ 0x3000 + p.msgCap)

/-- The bus serves an access of `n` bytes at `off` (rules R56 to R58): aligned, and either bytes of an array or a
buffer or a 4-byte access to a control register. -/
def busServes (p : Config.Params) (off n : Nat) : Prop :=
  off % n = 0 ∧ (bytesMapped p off n ∨ (off < 0x1C ∧ n = 4))

/-- A byte that a host write can change: TAG_OUT and MSG_OUT are read-only (rules R30, R36). -/
def hostWritable (a : Nat) : Bool := !(decide (0x50 ≤ a ∧ a < 0x60)) && decide (a < 0x3000)

/-! ### Frames -/

/-- The inputs of a command are unchanged: KEY, IV, TAG_IN and the three lengths. -/
def State.SameInputs (s t : State) : Prop :=
  t.key = s.key ∧ t.iv = s.iv ∧ t.tagIn = s.tagIn ∧ t.aadLen = s.aadLen ∧ t.msgLen = s.msgLen ∧ t.tagLen = s.tagLen

/-- IRQ_EN and the model's own fields are unchanged. -/
def State.SameSetting (s t : State) : Prop :=
  t.ie = s.ie ∧ t.params = s.params ∧ t.events = s.events ∧ t.resp = s.resp

/-- PENDING, DONE, RESULT, CLKCNT and S are unchanged. -/
def State.SameStatus (s t : State) : Prop :=
  t.pending = s.pending ∧ t.done = s.done ∧ t.result = s.result ∧ t.clkcnt = s.clkcnt ∧ t.nfsr = s.nfsr

/-- What a write of the low `n` bytes of `v` at `off` does to arrays and buffers while BUSY = 0: each writable byte of
the access takes its lane, every other byte of the window and every register keeps its value, and the response is OK
(rules R54, R61). -/
def State.StoreEffect (n off : Nat) (v : Word) (s t : State) : Prop :=
  (∀ a, t.storedByte a =
    if off ≤ a ∧ a < off + n ∧ hostWritable a = true then v.extractLsb' (8 * (a - off)) 8 else s.storedByte a)
  ∧ (∀ a, a < 0x1000 → t.mem.read a = s.mem.read a)
  ∧ s.SameStatus t ∧ t.ie = s.ie ∧ t.aadLen = s.aadLen ∧ t.msgLen = s.msgLen ∧ t.tagLen = s.tagLen
  ∧ t.params = s.params ∧ t.events = s.events ∧ t.resp = some ⟨false, 0⟩

end Sys2Proof.Machine
end

