-- ==== Sys2Proof/Certificates/Slice0/Obligations.lean ====
section
/-! DEFINITION. The statements about the model, from the numbered rules of spec/. Each docstring names the rules it
formalises; OBLIGATIONS.json gives its tier, its basis and its quote. -/

open Sys2Proof Sys2Proof.Machine

/-! ### Register core (spec/40_register_core.md) -/

/-- Rules R120, R121: `maj` is 1 exactly when at least two inputs are 1; `ch` is `y` when `x = 1` and `z` when
`x = 0`; both on all 8 input combinations (R122). -/
def Obligations.BooleanTapsTruthTables : Prop :=
  ∀ x y z : Bool,
    maj x y z = decide (2 ≤ x.toNat + y.toNat + z.toNat) ∧ ch x y z = (if x = true then y else z)

/-- Rule R125, in the closed form of R126 (which the spec derives): every cell of the diffused register from the cells
before the diffusion. -/
def Obligations.DiffusionEqualsSimultaneousUpdate : Prop :=
  ∀ (s : Nfsr) (j : Nat), j < 293 → (diffuse s).getLsbD j =
    if j = 289 then s.getLsbD 289 ^^ s.getLsbD 235 ^^ s.getLsbD 230
    else if j = 230 then s.getLsbD 230 ^^ s.getLsbD 196 ^^ s.getLsbD 193
    else if j = 193 then s.getLsbD 193 ^^ s.getLsbD 160 ^^ s.getLsbD 154
    else if j = 154 then s.getLsbD 154 ^^ s.getLsbD 111 ^^ s.getLsbD 107
    else if j = 107 then s.getLsbD 107 ^^ s.getLsbD 66 ^^ s.getLsbD 61
    else if j = 61 then s.getLsbD 61 ^^ s.getLsbD 23 ^^ s.getLsbD 0
    else s.getLsbD j

/-- Rules R123, R124: `ksg` and `fbk` read no cell but their taps; `ca` gates cell 196 and `cb` the keystream bit; on
the all-zero state `(f, ks) = (1, 0)` under every control. -/
def Obligations.FeedbackReadsOnlyItsTaps : Prop :=
  (∀ (s : Nfsr) (i : Nat), i < 293 → i ∉ [12, 61, 154, 193, 235] → ksg (s ^^^ BitVec.twoPow 293 i) = ksg s)
  ∧ (∀ (s : Nfsr) (ca cb : Bool) (i : Nat), i < 293 →
      i ∉ [0, 12, 23, 61, 66, 107, 111, 154, 160, 193, 196, 230, 235, 244] →
      fbk (s ^^^ BitVec.twoPow 293 i) ca cb = fbk s ca cb)
  ∧ (∀ (s : Nfsr) (ca cb : Bool),
      (fbk s ca cb).1 = ((fbk s false false).1 ^^ (ca && s.getLsbD 196) ^^ (cb && ksg s)))
  ∧ (∀ ca cb : Bool, fbk 0 ca cb = (true, false))

/-- Rules R123, R124, R127, R128, R129, R130: the whole of one clock over the diffused register `T`: the keystream bit,
the output bit, and every cell of the register after it, the top cell being the feedback bit XOR the plaintext bit; in a
session it adds 1 to the running clock count. -/
def Obligations.ClockUpdatesEveryCell : Prop :=
  ∀ (s : Nfsr) (dir : Direction) (b ca cb : Bool),
    let T := fun i => (diffuse s).getLsbD i
    let ks := T 12 ^^ T 154 ^^ ((T 235 && T 61) ^^ (T 235 && T 193) ^^ (T 61 && T 193))
    let f := T 0 ^^ (true ^^ T 107) ^^ ((T 244 && T 23) ^^ (T 244 && T 160) ^^ (T 23 && T 160))
      ^^ ((T 230 && T 111) ^^ ((true ^^ T 230) && T 66)) ^^ (ca && T 196) ^^ (cb && ks)
    let p := if dir = .enc then b else ks ^^ b
    (clock s dir b ca cb).2.2 = ks
    ∧ (clock s dir b ca cb).2.1 = (if dir = .enc then ks ^^ b else p)
    ∧ (∀ j, j < 292 → (clock s dir b ca cb).1.getLsbD j = T (j + 1))
    ∧ (clock s dir b ca cb).1.getLsbD 292 = (f ^^ p)
    ∧ ∀ n, Session.clock ⟨s, n⟩ dir b ca cb = (⟨(clock s dir b ca cb).1, n + 1⟩, (clock s dir b ca cb).2)

/-- Rule R131 (which the spec derives): a decrypt-clock on the ciphertext bit reaches the state of the encrypt-clock and
recovers the plaintext bit. -/
def Obligations.DecryptClockMirrorsEncryptClock : Prop :=
  ∀ (s : Nfsr) (b ca cb : Bool),
    clock s .dec (clock s .enc b ca cb).2.1 ca cb = ((clock s .enc b ca cb).1, b, (clock s .enc b ca cb).2.2)

/-! ### Byte adapter (spec/41_byte_adapter.md) -/

/-- Rules R150, R151, R152: bit `i` of every output byte is the output of clock `i`, which takes bit `i` of the input
and mask bytes, in the register that `i` clocks have left; eight clocks are performed. -/
def Obligations.ByteAdapterRunsEightClocksLsbFirst : Prop :=
  ∀ (ss : Session) (x ca cb : Byte),
    let enc := fun i : Nat => (List.range i).foldl
      (fun s i => (clock s .enc (x.getLsbD i) (ca.getLsbD i) (cb.getLsbD i)).1) ss.reg
    let dec := fun i : Nat => (List.range i).foldl
      (fun s i => (clock s .dec (x.getLsbD i) (ca.getLsbD i) (cb.getLsbD i)).1) ss.reg
    (encryptByte ss x ca cb).1 = ⟨enc 8, ss.clocks + 8⟩
    ∧ (decryptByte ss x ca cb).1 = ⟨dec 8, ss.clocks + 8⟩
    ∧ ∀ i, i < 8 →
      (encryptByte ss x ca cb).2.1.getLsbD i
          = (clock (enc i) .enc (x.getLsbD i) (ca.getLsbD i) (cb.getLsbD i)).2.1
      ∧ (encryptByte ss x ca cb).2.2.getLsbD i
          = (clock (enc i) .enc (x.getLsbD i) (ca.getLsbD i) (cb.getLsbD i)).2.2
      ∧ (decryptByte ss x ca cb).2.getLsbD i
          = (clock (dec i) .dec (x.getLsbD i) (ca.getLsbD i) (cb.getLsbD i)).2.1

/-- Rule R153 (which the spec derives): `c = m ⊕ k`, and decryptByte on `c` reaches the same session and recovers
`m`. -/
def Obligations.DecryptByteInvertsEncryptByte : Prop :=
  ∀ (ss : Session) (m ca cb : Byte),
    (encryptByte ss m ca cb).2.1 = m ^^^ (encryptByte ss m ca cb).2.2
    ∧ decryptByte ss (encryptByte ss m ca cb).2.1 ca cb = ((encryptByte ss m ca cb).1, m)

/-! ### Orchestrator (spec/42_aead_orchestrator.md) -/

/-- Rules R172, R173: Init runs 1536 encrypt-clocks with `ca = cb = 1` from the all-zero register, on the 128 key bits,
the 128 IV bits, a single 1, and zeros; bit `i` of an array is bit `i mod 8` of its byte `i / 8`. -/
def Obligations.InitClocksKeyThenIvThenOne : Prop :=
  ∀ key iv : Bytes16,
    (phaseInit key iv).clocks = 1536
    ∧ (phaseInit key iv).reg =
      ((List.range 128).map (fun i => (key.read (i / 8)).getLsbD (i % 8))
        ++ (List.range 128).map (fun i => (iv.read (i / 8)).getLsbD (i % 8))
        ++ [true] ++ List.replicate 1279 false).foldl (fun s m => (clock s .enc m true true).1) 0

/-- Rule R174 (which the spec derives): Init equals 192 calls of encryptByte under all-ones masks on the key bytes, the
IV bytes, 0x01 and 159 bytes of 0x00. -/
def Obligations.InitEqualsItsByteForm : Prop :=
  ∀ key iv : Bytes16,
    phaseInit key iv =
      ((List.range 16).map key.read ++ (List.range 16).map iv.read ++ [0x01] ++ List.replicate 159 0x00).foldl
        (fun ss x => (encryptByte ss x 0xff 0xff).1) ⟨0, 0⟩

/-- Rules R100, R175, R176, R179: the calls of encryptByte that AbsorbAAD and the two pads make, with their input and
mask bytes, in order. -/
def Obligations.AbsorbAndPadsMakeTheListedCalls : Prop :=
  ∀ (ss : Session) (aad : List Byte),
    absorbAad ss aad = aad.foldl (fun ss a => (encryptByte ss a 0xff 0xff).1) ss
    ∧ padAfterAad ss = [((0x01 : Byte), (0xff : Byte)), (0, 0xff), (0, 0xff), (0, 0xff), (0, 0), (0, 0), (0, 0), (0, 0)].foldl
        (fun ss c => (encryptByte ss c.1 c.2 0xff).1) ss
    ∧ padAfterMsg ss = [((0x01 : Byte), (0xff : Byte)), (0, 0xff), (0, 0xff), (0, 0xff), (0, 0), (0, 0), (0, 0), (0, 0)].foldl
        (fun ss c => (encryptByte ss c.1 c.2 0x00).1) ss

/-- Rules R100, R177, R178: byte `j` of Process is the output of call `j`, made in the session that the calls on the
bytes before it have left, under masks 0xff and 0x00; there is one output byte for each input byte. -/
def Obligations.ProcessMakesOneCallPerByte : Prop :=
  ∀ (ss : Session) (data : List Byte),
    let enc := fun j : Nat => (data.take j).foldl (fun ss x => (encryptByte ss x 0xff 0x00).1) ss
    let dec := fun j : Nat => (data.take j).foldl (fun ss x => (decryptByte ss x 0xff 0x00).1) ss
    (processEnc ss data).1 = enc data.length ∧ (processDec ss data).1 = dec data.length
    ∧ (processEnc ss data).2.length = data.length ∧ (processDec ss data).2.length = data.length
    ∧ ∀ j, j < data.length →
      (processEnc ss data).2.getD j 0 = (encryptByte (enc j) (data.getD j 0) 0xff 0x00).2.1
      ∧ (processDec ss data).2.getD j 0 = (decryptByte (dec j) (data.getD j 0) 0xff 0x00).2

/-- Rule R180: Finalize makes 64 calls of encryptByte on zero bytes under all-ones masks, and tag byte `k` is the
keystream byte of call `48 + k`. -/
def Obligations.TagIsTheLastSixteenKeystreamBytes : Prop :=
  ∀ ss : Session,
    let call := fun j : Nat => (List.range j).foldl (fun ss _ => (encryptByte ss 0x00 0xff 0xff).1) ss
    (finalize ss).1 = call 64
    ∧ ∀ k, k < 16 → (finalize ss).2.read k = (encryptByte (call (48 + k)) 0x00 0xff 0xff).2.2

/-- Rules R170, R181, R182: both operations run the six phases in the one order, and only Process differs. -/
def Obligations.AeadRunsTheSixPhasesInOrder : Prop :=
  ∀ (key iv : Bytes16) (aad data : List Byte),
    let pre := padAfterAad (absorbAad (phaseInit key iv) aad)
    let fin := fun r : Session × List Byte => finalize (padAfterMsg r.1)
    (aeadEncrypt key iv aad data).out = (processEnc pre data).2
    ∧ (aeadEncrypt key iv aad data).tag = (fin (processEnc pre data)).2
    ∧ (aeadEncrypt key iv aad data).clocks = (fin (processEnc pre data)).1.clocks
    ∧ (aeadDecrypt key iv aad data).out = (processDec pre data).2
    ∧ (aeadDecrypt key iv aad data).tag = (fin (processDec pre data)).2
    ∧ (aeadDecrypt key iv aad data).clocks = (fin (processDec pre data)).1.clocks

/-- Rules R183 and R184 (which the spec derives): a session performs `2176 + 8 × (A + M)` clocks, whatever the data. The
model counts each clock it performs (log entry 7). -/
def Obligations.SessionClockCountDependsOnlyOnLengths : Prop :=
  ∀ (key iv : Bytes16) (aad data : List Byte),
    (aeadEncrypt key iv aad data).clocks = 2176 + 8 * (aad.length + data.length)
    ∧ (aeadDecrypt key iv aad data).clocks = 2176 + 8 * (aad.length + data.length)

/-- Rule R185 (which the spec derives): decrypting a ciphertext gives the message, the same tag and the same count. -/
def Obligations.AeadDecryptInvertsAeadEncrypt : Prop :=
  ∀ (key iv : Bytes16) (aad msg : List Byte),
    (aeadEncrypt key iv aad msg).out.length = msg.length
    ∧ aeadDecrypt key iv aad (aeadEncrypt key iv aad msg).out
      = ⟨msg, (aeadEncrypt key iv aad msg).tag, (aeadEncrypt key iv aad msg).clocks⟩

/-- Rule R214: the comparator reports equality exactly of equal tags. -/
def Obligations.ComparatorReportsExactlyEquality : Prop :=
  ∀ a b : Bytes16, ctEq a b = true ↔ a = b

/-! ### The commands (spec/43_host_commands.md) -/

/-- Rule R207: NOP completes and changes no state. -/
def Obligations.NopChangesNothing : Prop := ∀ s : State, exec .nop s = .next s

/-- Rules R203, R206, R209, R236: ENCRYPT with legal lengths completes with OK; the ciphertext and the tag are those of
AeadEncrypt on the registers and buffers, CLKCNT is the clock count, S is zero, and nothing else changes. -/
def Obligations.EncryptWritesCiphertextAndTag : Prop :=
  ∀ s : State, s.mem.wf = true → s.aadLen.toNat ≤ s.params.aadCap → s.msgLen.toNat ≤ s.params.msgCap →
    ∃ t, exec .encrypt s = .next t
      ∧ t.pending = none ∧ t.done = true ∧ t.result = .ok ∧ t.nfsr = 0
      ∧ t.tagOut = (aeadEncrypt s.key s.iv (s.mem.readList 0x1000 s.aadLen.toNat)
          (s.mem.readList 0x2000 s.msgLen.toNat)).tag
      ∧ t.clkcnt.toNat = 2176 + 8 * (s.aadLen.toNat + s.msgLen.toNat)
      ∧ (∀ j, j < s.msgLen.toNat → t.mem.read (0x3000 + j) = (aeadEncrypt s.key s.iv
          (s.mem.readList 0x1000 s.aadLen.toNat) (s.mem.readList 0x2000 s.msgLen.toNat)).out.getD j 0)
      ∧ (∀ a, ¬(0x3000 ≤ a ∧ a < 0x3000 + s.msgLen.toNat) → t.mem.read a = s.mem.read a)
      ∧ s.SameInputs t ∧ s.SameSetting t

/-- Rules R203, R206, R235: ENCRYPT with a length above its capacity completes with LENGTH_ERROR and changes nothing
but STATUS, PENDING and S. -/
def Obligations.EncryptRefusesLongLengths : Prop :=
  ∀ s : State, (s.params.aadCap < s.aadLen.toNat ∨ s.params.msgCap < s.msgLen.toNat) →
    exec .encrypt s = .next { s with nfsr := 0, pending := none, done := true, result := .lengthError }

/-- Rules R204, R210, R232, R241: DECRYPT with TAG_LEN ≠ 16 completes with TAG_LENGTH_ERROR whatever else the state
holds, the lengths included, and changes nothing but STATUS, PENDING and S; run as the accepted command it leaves
CLKCNT = 0 and the outputs 0. -/
def Obligations.DecryptGatesOnTagLength : Prop :=
  ∀ s : State, s.tagLen ≠ 16 →
    exec .decrypt s = .next { s with nfsr := 0, pending := none, done := true, result := .tagLengthError }
    ∧ (s.Inv → s.pending = some .decrypt → s.clkcnt = 0 ∧ s.OutputsZero)

/-- Rules R204, R206, R235, R241: after the tag length, a length above its capacity gives LENGTH_ERROR. -/
def Obligations.DecryptRefusesLongLengths : Prop :=
  ∀ s : State, s.tagLen = 16 → (s.params.aadCap < s.aadLen.toNat ∨ s.params.msgCap < s.msgLen.toNat) →
    exec .decrypt s = .next { s with nfsr := 0, pending := none, done := true, result := .lengthError }

/-- Rules R204, R209, R214, R236: DECRYPT whose recomputed tag equals TAG_IN completes with OK and releases the
plaintext; TAG_OUT is not written. -/
def Obligations.DecryptReleasesAuthenticPlaintext : Prop :=
  ∀ s : State, s.mem.wf = true → s.tagLen = 16 →
    s.aadLen.toNat ≤ s.params.aadCap → s.msgLen.toNat ≤ s.params.msgCap →
    (aeadDecrypt s.key s.iv (s.mem.readList 0x1000 s.aadLen.toNat) (s.mem.readList 0x2000 s.msgLen.toNat)).tag
      = s.tagIn →
    ∃ t, exec .decrypt s = .next t
      ∧ t.pending = none ∧ t.done = true ∧ t.result = .ok ∧ t.nfsr = 0 ∧ t.tagOut = s.tagOut
      ∧ t.clkcnt.toNat = 2176 + 8 * (s.aadLen.toNat + s.msgLen.toNat)
      ∧ (∀ j, j < s.msgLen.toNat → t.mem.read (0x3000 + j) = (aeadDecrypt s.key s.iv
          (s.mem.readList 0x1000 s.aadLen.toNat) (s.mem.readList 0x2000 s.msgLen.toNat)).out.getD j 0)
      ∧ (∀ a, ¬(0x3000 ≤ a ∧ a < 0x3000 + s.msgLen.toNat) → t.mem.read a = s.mem.read a)
      ∧ s.SameInputs t ∧ s.SameSetting t

/-- Rules R204, R215, R234: DECRYPT whose recomputed tag differs from TAG_IN completes with AUTHENTICATION_FAIL; the
whole next state is the state before it with PENDING, STATUS, S and CLKCNT written, so no byte of the candidate
plaintext or of the recomputed tag reaches it; CLKCNT depends on the lengths alone. -/
def Obligations.DecryptWithholdsForgedPlaintext : Prop :=
  ∀ s : State, s.tagLen = 16 → s.aadLen.toNat ≤ s.params.aadCap → s.msgLen.toNat ≤ s.params.msgCap →
    (aeadDecrypt s.key s.iv (s.mem.readList 0x1000 s.aadLen.toNat) (s.mem.readList 0x2000 s.msgLen.toNat)).tag
      ≠ s.tagIn →
    exec .decrypt s = .next { s with
      nfsr := 0, pending := none, done := true, result := .authenticationFail
      clkcnt := BitVec.ofNat 32 (2176 + 8 * (s.aadLen.toNat + s.msgLen.toNat)) }

/-- Rule R205: CLEAR completes with OK, zeroes every array, every buffer byte, the lengths and CLKCNT, and keeps
IRQ_EN. -/
def Obligations.ClearZeroesEverythingButIrqEn : Prop :=
  ∀ s : State, ∃ t, exec .clear s = .next t
    ∧ t.pending = none ∧ t.done = true ∧ t.result = .ok ∧ t.nfsr = 0 ∧ t.clkcnt = 0
    ∧ t.aadLen = 0 ∧ t.msgLen = 0 ∧ t.tagLen = 0
    ∧ t.key = Bytes16.zero ∧ t.iv = Bytes16.zero ∧ t.tagIn = Bytes16.zero ∧ t.tagOut = Bytes16.zero
    ∧ (∀ a, bufferByte s.params a = true → t.mem.read a = 0)
    ∧ (∀ a, bufferByte s.params a = false → t.mem.read a = s.mem.read a)
    ∧ s.SameSetting t

/-- Rule R262 (which the spec derives): in every reachable state CLEAR leaves what reset leaves, but for IRQ_EN and
STATUS (and the model's own fields). -/
def Obligations.ClearEqualsResetButIrqEnAndStatus : Prop :=
  ∀ s : State, s.Inv →
    exec .clear s = .next { State.resetWith s.params s.events with
      done := true, result := .ok, ie := s.ie, resp := s.resp }

/-- Source property T1 on the block (derived from rules R203, R204, R185): a DECRYPT of what an ENCRYPT left, under the
same KEY, IV, AAD and lengths, completes with OK and leaves the message in MSG_OUT. -/
def Obligations.EncryptThenDecryptRestoresMessage : Prop :=
  ∀ s t u : State, s.mem.wf = true → s.aadLen.toNat ≤ s.params.aadCap → s.msgLen.toNat ≤ s.params.msgCap →
    exec .encrypt s = .next t →
    u.mem.wf = true → u.params = s.params → u.key = s.key → u.iv = s.iv →
    u.aadLen = s.aadLen → u.msgLen = s.msgLen → u.tagLen = 16 → u.tagIn = t.tagOut →
    (∀ j, j < s.aadLen.toNat → u.mem.read (0x1000 + j) = s.mem.read (0x1000 + j)) →
    (∀ j, j < s.msgLen.toNat → u.mem.read (0x2000 + j) = t.mem.read (0x3000 + j)) →
    ∃ v, exec .decrypt u = .next v ∧ v.result = .ok
      ∧ ∀ j, j < s.msgLen.toNat → v.mem.read (0x3000 + j) = s.mem.read (0x2000 + j)

/-! ### Bus reads (spec/20_memory.md) -/

/-- Rules R25, R26, R31, R32, R33, R34, R35, R60: what a 4-byte read of each control register answers, in every state,
BUSY or not; the read changes nothing but the response. -/
def Obligations.RegisterReadsAnswerTheirFields : Prop :=
  ∀ (s : State) (w : Word),
    exec (.ld32 0x00 w) s = .next { s with resp := some ⟨false, 0⟩ }
    ∧ exec (.ld32 0x04 w) s = .next { s with resp := some ⟨false, BitVec.ofNat 32
        (16 * s.result.code.toNat + 2 * s.done.toNat + (if s.pending = none then 0 else 1))⟩ }
    ∧ exec (.ld32 0x08 w) s = .next { s with resp := some ⟨false, BitVec.ofNat 32 s.ie.toNat⟩ }
    ∧ exec (.ld32 0x0C w) s = .next { s with resp := some ⟨false, s.clkcnt⟩ }
    ∧ exec (.ld32 0x10 w) s = .next { s with resp := some ⟨false, BitVec.ofNat 32 s.aadLen.toNat⟩ }
    ∧ exec (.ld32 0x14 w) s = .next { s with resp := some ⟨false, BitVec.ofNat 32 s.msgLen.toNat⟩ }
    ∧ exec (.ld32 0x18 w) s = .next { s with resp := some ⟨false, BitVec.ofNat 32 s.tagLen.toNat⟩ }

/-- Rules R27, R54, R60, R93: an aligned read within one array or buffer answers its bytes, the lowest offset in bits
7:0, zero-extended, KEY reading 0; it changes nothing but the response. -/
def Obligations.ByteReadsAreLittleEndianAndZeroExtended : Prop :=
  ∀ (s : State) (off : Nat) (w : Word), s.params.valid = true →
    (bytesMapped s.params off 1 →
      exec (.ld8 off w) s = .next { s with resp := some ⟨false, (s.hostByte off).setWidth 32⟩ })
    ∧ (off % 2 = 0 → bytesMapped s.params off 2 →
      exec (.ld16 off w) s = .next { s with
        resp := some ⟨false, (s.hostByte (off + 1) ++ s.hostByte off).setWidth 32⟩ })
    ∧ (off % 4 = 0 → bytesMapped s.params off 4 →
      exec (.ld32 off w) s = .next { s with resp := some ⟨false,
        s.hostByte (off + 3) ++ s.hostByte (off + 2) ++ s.hostByte (off + 1) ++ s.hostByte off⟩ })

/-- Rules R52, R62: every read completes in every state and changes no state but the response. -/
def Obligations.ReadsHaveNoSideEffect : Prop :=
  ∀ (s : State) (off : Nat) (w : Word),
    (∃ r, exec (.ld8 off w) s = .next { s with resp := some r })
    ∧ (∃ r, exec (.ld16 off w) s = .next { s with resp := some r })
    ∧ (∃ r, exec (.ld32 off w) s = .next { s with resp := some r })

/-- Rules R55, R56, R57, R58, R231: an access of any kind that is misaligned, not within one mapped row, or narrow on a
control register ends with BusError, whether or not BUSY is set, and changes no state. -/
def Obligations.UnservedAccessesEndWithBusError : Prop :=
  ∀ (s : State) (off : Nat) (w : Word), s.params.valid = true →
    (¬busServes s.params off 1 →
      exec (.ld8 off w) s = .next { s with resp := some ⟨true, 0⟩ }
      ∧ exec (.st8 off w) s = .next { s with resp := some ⟨true, 0⟩ })
    ∧ (¬busServes s.params off 2 →
      exec (.ld16 off w) s = .next { s with resp := some ⟨true, 0⟩ }
      ∧ exec (.st16 off w) s = .next { s with resp := some ⟨true, 0⟩ })
    ∧ (¬busServes s.params off 4 →
      exec (.ld32 off w) s = .next { s with resp := some ⟨true, 0⟩ }
      ∧ exec (.st32 off w) s = .next { s with resp := some ⟨true, 0⟩ })

/-- Rule R27 and rules R43, R60: no bus transaction answers anything that depends on KEY or on S. Two states that differ
only there get the same response, and differ only there afterwards. -/
def Obligations.BusNeverRevealsKeyOrRegister : Prop :=
  ∀ (s : State) (k : Bytes16) (x : Nfsr) (i : Instr),
    i ≠ .encrypt → i ≠ .decrypt → i ≠ .clear → i ≠ .nop →
    ∃ t k', exec i s = .next t ∧ exec i { s with key := k, nfsr := x } = .next { t with key := k', nfsr := x }

/-! ### Bus writes (spec/20_memory.md) -/

/-- Rules R30, R36, R54, R61: a write within one array or buffer while BUSY = 0 stores its low bytes, lane `k` at
`off + k`, except that TAG_OUT and MSG_OUT ignore it; every other byte of the window and every register is unchanged. -/
def Obligations.ByteWritesStoreTheirLanesOnly : Prop :=
  ∀ (s : State) (off : Nat) (w : Word), s.params.valid = true → s.mem.wf = true → s.pending = none →
    (bytesMapped s.params off 1 → ∃ t, exec (.st8 off w) s = .next t ∧ s.StoreEffect 1 off w t)
    ∧ (off % 2 = 0 → bytesMapped s.params off 2 →
      ∃ t, exec (.st16 off w) s = .next t ∧ s.StoreEffect 2 off w t)
    ∧ (off % 4 = 0 → bytesMapped s.params off 4 →
      ∃ t, exec (.st32 off w) s = .next t ∧ s.StoreEffect 4 off w t)

/-- Rules R26, R31, R32, R33, R34, R35, R61, R98: what a write of each control register but CMD does while BUSY = 0:
bit 1 of STATUS clears DONE, IRQ_EN and the lengths take their field, CLKCNT ignores it, reserved bits are ignored. -/
def Obligations.RegisterWritesTakeTheirFields : Prop :=
  ∀ (s : State) (w : Word), s.pending = none →
    exec (.st32 0x04 w) s = .next { s with
      done := if w.getLsbD 1 then false else s.done, resp := some ⟨false, 0⟩ }
    ∧ exec (.st32 0x08 w) s = .next { s with ie := w.getLsbD 0, resp := some ⟨false, 0⟩ }
    ∧ exec (.st32 0x0C w) s = .next { s with resp := some ⟨false, 0⟩ }
    ∧ exec (.st32 0x10 w) s = .next { s with aadLen := BitVec.ofNat 16 w.toNat, resp := some ⟨false, 0⟩ }
    ∧ exec (.st32 0x14 w) s = .next { s with msgLen := BitVec.ofNat 16 w.toNat, resp := some ⟨false, 0⟩ }
    ∧ exec (.st32 0x18 w) s = .next { s with tagLen := BitVec.ofNat 8 w.toNat, resp := some ⟨false, 0⟩ }

/-- Rule R63: while BUSY = 1 every write that the bus serves, CMD and STATUS included, is ignored and answered OK. -/
def Obligations.WritesDuringBusyAreIgnored : Prop :=
  ∀ (s : State) (off : Nat) (w : Word), s.params.valid = true → s.pending ≠ none →
    (busServes s.params off 1 → exec (.st8 off w) s = .next { s with resp := some ⟨false, 0⟩ })
    ∧ (busServes s.params off 2 → exec (.st16 off w) s = .next { s with resp := some ⟨false, 0⟩ })
    ∧ (busServes s.params off 4 → exec (.st32 off w) s = .next { s with resp := some ⟨false, 0⟩ })

/-- Rules R200, R201, R202, R207, R90, R96: the effect of a 4-byte write to CMD while BUSY = 0, for every word: NOP
changes nothing; 1, 2 and 3 latch their command, clear DONE, RESULT, CLKCNT, TAG_OUT and all of MSG_OUT, and change
nothing else; every other word is refused with ILLEGAL_COMMAND at once. -/
def Obligations.CommandWriteAcceptsOrRefuses : Prop :=
  ∀ (s : State) (w : Word), s.pending = none →
    (w = 0 → exec (.st32 0x00 w) s = .next { s with resp := some ⟨false, 0⟩ })
    ∧ (4 ≤ w.toNat → exec (.st32 0x00 w) s = .next { s with
        done := true, result := .illegalCommand, resp := some ⟨false, 0⟩ })
    ∧ (∀ op : Command, w = (match op with | .encrypt => 1 | .decrypt => 2 | .clear => 3) →
        ∃ t, exec (.st32 0x00 w) s = .next t
          ∧ t.pending = some op ∧ t.done = false ∧ t.result = .none ∧ t.clkcnt = 0 ∧ t.nfsr = s.nfsr
          ∧ t.tagOut = Bytes16.zero
          ∧ (∀ a, t.mem.read a = if 0x3000 ≤ a ∧ a < 0x3000 + s.params.msgCap then 0 else s.mem.read a)
          ∧ s.SameInputs t ∧ t.ie = s.ie ∧ t.params = s.params ∧ t.events = s.events
          ∧ t.resp = some ⟨false, 0⟩)

/-- Rules R63 and R64 (which the spec derives): in every reachable state with BUSY = 1, STATUS reads 1, and CLKCNT and
every byte of TAG_OUT and MSG_OUT read 0. -/
def Obligations.BusyWindowShowsNothingComputed : Prop :=
  ∀ (s : State) (w : Word), s.Inv → s.pending ≠ none →
    exec (.ld32 0x04 w) s = .next { s with resp := some ⟨false, 1⟩ }
    ∧ exec (.ld32 0x0C w) s = .next { s with resp := some ⟨false, 0⟩ }
    ∧ (∀ k, k < 16 → exec (.ld8 (0x50 + k) w) s = .next { s with resp := some ⟨false, 0⟩ })
    ∧ (∀ j, j < s.params.msgCap → exec (.ld8 (0x3000 + j) w) s = .next { s with resp := some ⟨false, 0⟩ })

/-! ### Completion and interrupt (spec/60_exceptions.md) -/

/-- Rules R39, R236, R238, R240: `irq` is DONE and IE; a completed or refused command raises it exactly when IE = 1;
the acknowledgement drops it and keeps RESULT; accepting a command drops it. -/
def Obligations.IrqFollowsDoneAndEnable : Prop :=
  ∀ (s : State) (w : Word),
    s.irq = (s.done && s.ie)
    ∧ (∀ op t, exec (Command.instr op) s = .next t → t.irq = s.ie ∧ t.pending = none)
    ∧ (s.pending = none → 4 ≤ w.toNat → ∃ t, exec (.st32 0x00 w) s = .next t ∧ t.irq = s.ie)
    ∧ (s.pending = none → w.getLsbD 1 = true →
        ∃ t, exec (.st32 0x04 w) s = .next t ∧ t.irq = false ∧ t.result = s.result)
    ∧ (s.pending = none → (w = 1 ∨ w = 2 ∨ w = 3) → ∃ t, exec (.st32 0x00 w) s = .next t ∧ t.irq = false)

/-! ### Encoding (spec/30_encoding.md) -/

/-- Rules R90, R95: the decoder reads an encoded well-formed instruction back, every operand included. -/
def Obligations.DecodeReadsBackEveryEncoding : Prop :=
  ∀ i : Instr, i.wellFormed = true → decode (encode i) = .instr i

/-- Rules R90, R91, R95, R97: every word is the encoding of exactly one well-formed instruction or is rejected: an
illegal command word, or a request with SIZE = 3. -/
def Obligations.EveryWordIsOneInstructionOrRejected : Prop :=
  ∀ c : CodeWord,
    (∃ i, decode c = .instr i ∧ i.wellFormed = true ∧ encode i = c)
    ∨ (∃ v, c = .command v ∧ decode c = .illegalCommand ∧ 4 ≤ v.toNat)
    ∨ (∃ w, c = .request w ∧ decode c = .reservedSize ∧ w.toNat / 2 ^ 48 % 4 = 3)

/-- The opcode table's match and mask of every bus row (rules R60, R61, R95): the decoder reads the row exactly from
the words that match it, with OFF and WDATA as numbers. -/
def Obligations.RequestDecodingMatchesTheOpcodeTable : Prop :=
  ∀ (w : Request) (off : Nat) (d : Word),
    off = w.toNat / 2 ^ 32 % 65536 → d = BitVec.ofNat 32 w.toNat →
    (decodeRequest w = .instr (.ld8 off d) ↔ w &&& 0x7000000000000#51 = 0x0000000000000#51)
    ∧ (decodeRequest w = .instr (.ld16 off d) ↔ w &&& 0x7000000000000#51 = 0x1000000000000#51)
    ∧ (decodeRequest w = .instr (.ld32 off d) ↔ w &&& 0x7000000000000#51 = 0x2000000000000#51)
    ∧ (decodeRequest w = .instr (.st8 off d) ↔ w &&& 0x7000000000000#51 = 0x4000000000000#51)
    ∧ (decodeRequest w = .instr (.st16 off d) ↔ w &&& 0x7000000000000#51 = 0x5000000000000#51)
    ∧ (decodeRequest w = .instr (.st32 off d) ↔ w &&& 0x7000000000000#51 = 0x6000000000000#51)

/-- Words of rules R90 and R99 and of spec/95_test_vectors.md, written out, decode to what they stand for. -/
def Obligations.WrittenOutWordsDecode : Prop :=
  decode (.command 0x00000000#32) = .instr .nop
  ∧ decode (.command 0x00000001#32) = .instr .encrypt
  ∧ decode (.command 0x00000002#32) = .instr .decrypt
  ∧ decode (.command 0x00000003#32) = .instr .clear
  ∧ decode (.command 0x00000011#32) = .illegalCommand
  ∧ decode (.request 0x0300400000000#51) = .instr (.ld8 0x3004 0)
  ∧ decode (.request 0x1002e00000000#51) = .instr (.ld16 0x002E 0)
  ∧ decode (.request 0x2000400000000#51) = .instr (.ld32 0x0004 0)
  ∧ decode (.request 0x4004f00000023#51) = .instr (.st8 0x004F 0x23)
  ∧ decode (.request 0x5100000004441#51) = .instr (.st16 0x1000 0x4441)
  ∧ decode (.request 0x6000400000002#51) = .instr (.st32 0x0004 0x2)
  ∧ decode (.request 0x3000400000000#51) = .reservedSize

/-! ### Reset and the step (spec/10_state.md, spec/70_reset_and_hazards.md) -/

/-- Rule R42: every piece of state after reset, as the spec gives it. -/
def Obligations.ResetLeavesEveryFieldZero : Prop :=
  State.reset.nfsr = 0 ∧ State.reset.pending = none ∧ State.reset.done = false ∧ State.reset.result = .none
  ∧ State.reset.statusWord = 0 ∧ State.reset.ie = false ∧ State.reset.irq = false ∧ State.reset.clkcnt = 0
  ∧ State.reset.aadLen = 0 ∧ State.reset.msgLen = 0 ∧ State.reset.tagLen = 0
  ∧ (∀ j, State.reset.key.read j = 0) ∧ (∀ j, State.reset.iv.read j = 0)
  ∧ (∀ j, State.reset.tagIn.read j = 0) ∧ (∀ j, State.reset.tagOut.read j = 0)
  ∧ (∀ a, State.reset.mem.read a = 0)

/-- Rule R260: `rst`, whatever the block is doing, leaves the reset state; a command in progress is abandoned. -/
def Obligations.RstAbandonsEverything : Prop :=
  ∀ (s : State) (rest : List Event), s.events = .rst :: rest →
    step s = .next { State.reset with params := s.params, events := rest }

/-- Rules R51, R66: the host's next request, where it decodes, is what a step runs, with the event used up. -/
def Obligations.StepRunsTheDecodedRequest : Prop :=
  ∀ (s : State) (req : Request) (rest : List Event) (i : Instr),
    s.events = .host req :: rest → decode (.request req) = .instr i →
    step s = exec i { s with events := rest }

/-- Rule R97: a request with SIZE = 3 ends with BusError and changes no state, whatever WE, OFF and WDATA are, and
whether or not the block is busy. -/
def Obligations.ReservedSizeEndsWithBusError : Prop :=
  ∀ (s : State) (we : Bool) (off : BitVec 16) (wdata : Word) (rest : List Event),
    s.events = .host (BitVec.ofBool we ++ (3 : BitVec 2) ++ off ++ wdata) :: rest →
    step s = .next { s with events := rest, resp := some ⟨true, 0⟩ }

/-- Rule R38: the engine's turn runs the latched command as one step, and does nothing where none is latched; it takes
its turn where the events say so, and where they are used up (log entries 1 and 2). No transaction is served. -/
def Obligations.EngineTurnRunsThePendingCommand : Prop :=
  ∀ (s : State) (rest : List Event),
    (s.events = .engine :: rest ∨ (s.events = [] ∧ rest = [])) →
    (∀ op, s.pending = some op →
      step s = exec (match op with | .encrypt => .encrypt | .decrypt => .decrypt | .clear => .clear)
        { s with events := rest, resp := none })
    ∧ (s.pending = none → step s = .next { s with events := rest, resp := none })

/-- Rules R52, R230: no outcome stops the machine: every state has a next state; and a step answers a bus transaction
exactly when it serves one. That a step uses up one event, and that a state with no event left still steps, is the
model's own form of the total order and of the engine's turn (log entries 1 and 2), as is the place where the response
shows (log entry 3). -/
def Obligations.EveryStepHasANextState : Prop :=
  ∀ s : State, ∃ t, step s = .next t
    ∧ (t.resp ≠ none ↔ ∃ req rest, s.events = .host req :: rest)
    ∧ t.events = s.events.tail

/-- Rules R7, R42, R260: the reset state of every instance with legal capacities, whatever events are to come, meets
the invariant. `State.reset` is the one with the default capacities and nothing to come (log entries 1 and 4). -/
def Obligations.ResetMeetsTheInvariant : Prop :=
  ∀ (p : Config.Params) (events : List Event), p.valid = true → (State.resetWith p events).Inv

/-- Every step keeps the invariant: the canonical memory, S zero between steps (R41), DONE = 0 and RESULT = NONE while
BUSY (R64), outputs zero unless OK put them there (R215, R234), CLKCNT zero where no clock ran (R209) and never above
67712 (R32). -/
def Obligations.EveryStepKeepsTheInvariant : Prop :=
  ∀ s t : State, s.Inv → step s = .next t → t.Inv

/-- Rule R280 with the fairness it assumes (log entry 2): from every state, within one more step than there are events to
come, the block is idle; its command has completed, or `rst` has abandoned it (rule R260). That a command completes
where no `rst` comes is `LatchedCommandCompletesWithoutReset`. -/
def Obligations.BlockBecomesIdleWithinItsEvents : Prop :=
  ∀ s : State, ∃ k t, k ≤ s.events.length + 1 ∧ Sys2Proof.core.run k s = .next t ∧ State.busy t = false

/-- Rules R38, R200, R201 as a rule of the whole machine: PENDING goes from none to a command only by a host's 4-byte
write of that command's word to CMD. -/
def Obligations.OnlyACommandWriteLatches : Prop :=
  ∀ (s t : State) (op : Command), s.pending = none → step s = .next t → t.pending = some op →
    ∃ rest, s.events = .host (match op with
      | .encrypt => 0x6000000000001#51 | .decrypt => 0x6000000000002#51 | .clear => 0x6000000000003#51) :: rest

/-- Rules R27, R63, R205, R260 as a rule of the whole machine: a step that changes KEY is a host write within KEY while
BUSY = 0, the engine step of CLEAR (the engine's turn, by log entries 1 and 2, with CLEAR latched, which completes with
OK), or reset; the last two leave it zero. -/
def Obligations.KeyChangesOnlyByWriteClearOrReset : Prop :=
  ∀ s t : State, s.params.valid = true → step s = .next t → t.key ≠ s.key →
    (s.pending = none ∧ ∃ req rest, s.events = .host req :: rest ∧ req.getLsbD 50 = true
        ∧ 0x20 ≤ req.toNat / 2 ^ 32 % 65536 ∧ req.toNat / 2 ^ 32 % 65536 < 0x30)
    ∨ (s.pending = some .clear ∧ (s.events = [] ∨ ∃ rest, s.events = .engine :: rest)
        ∧ t.pending = none ∧ t.result = .ok ∧ t.key = Bytes16.zero)
    ∨ (∃ rest, s.events = .rst :: rest ∧ t.key = Bytes16.zero)

/-- Rules R30, R203, R204 as a rule of the whole machine: a step that puts a byte other than 0 into TAG_OUT is the engine
step of a successful ENCRYPT. -/
def Obligations.TagOutIsWrittenOnlyByEncrypt : Prop :=
  ∀ s t : State, step s = .next t → t.tagOut ≠ s.tagOut → t.tagOut ≠ Bytes16.zero →
    s.pending = some .encrypt ∧ t.pending = none ∧ t.result = .ok
    ∧ (s.events = [] ∨ ∃ rest, s.events = .engine :: rest)

/-- Rules R31, R205, R260 as a rule of the whole machine: IRQ_EN.IE changes only by a host's 4-byte write at offset
0x0008 while BUSY = 0, or by reset. -/
def Obligations.IrqEnableChangesOnlyByWriteOrReset : Prop :=
  ∀ s t : State, s.params.valid = true → step s = .next t → t.ie ≠ s.ie →
    (s.pending = none ∧ ∃ w rest, s.events = .host ((0x60008#19 : BitVec 19) ++ (w : Word)) :: rest
        ∧ t.ie = w.getLsbD 0)
    ∨ (∃ rest, s.events = .rst :: rest ∧ t.ie = false)

/-- Rules R38, R63, R69, R236, R280 as a rule of the whole machine, with the fairness of log entry 2: a latched command
that no `rst` abandons completes. After the host's transactions that come before the engine's turn, the state is the
one before them but for the events and the response, so the command computes from the values held at its acceptance;
and its step ends with BUSY = 0, DONE = 1 and a result. -/
def Obligations.LatchedCommandCompletesWithoutReset : Prop :=
  ∀ (s : State) (op : Command), s.pending = some op → .rst ∉ s.events →
    ∃ k evs r u, k ≤ s.events.length
      ∧ Sys2Proof.core.run k s = .next { s with events := evs, resp := r }
      ∧ (evs = [] ∨ ∃ rest, evs = .engine :: rest)
      ∧ step { s with events := evs, resp := r } = .next u
      ∧ exec (Command.instr op) { s with events := evs.tail, resp := none } = .next u
      ∧ u.pending = none ∧ u.done = true ∧ u.result ≠ .none
end

