-- ==== Sys2Proof/Laws/Bytes16.lean ====
section
/-! SUPPORT. Reading, writing and comparing the 16-byte arrays. -/

namespace Sys2Proof.Machine

@[simp] theorem Bytes16.read_zero (j : Nat) : Bytes16.zero.read j = 0 := by
  by_cases h : j < 16 <;> simp [Bytes16.zero, Bytes16.read, h]

theorem Bytes16.read_of_lt (v : Bytes16) {j : Nat} (h : j < 16) : v.read j = v[j] := by
  simp [Bytes16.read, h]

/-- An array has no byte past its sixteenth; the operation reads 0 there. -/
theorem Bytes16.read_of_ge (v : Bytes16) {j : Nat} (h : 16 ≤ j) : v.read j = 0 := by
  have h' : ¬ j < 16 := by omega
  simp [Bytes16.read, h']

theorem Bytes16.read_write (v : Bytes16) (i j : Nat) (b : Byte) :
    (v.write i b).read j = if i = j ∧ j < 16 then b else v.read j := by
  by_cases hj : j < 16
  · rw [Bytes16.read_of_lt _ hj, Bytes16.read_of_lt _ hj]
    simp only [Bytes16.write, Vector.getElem_setIfInBounds, hj, and_true]
  · rw [Bytes16.read_of_ge _ (by omega), Bytes16.read_of_ge _ (by omega)]
    simp [hj]

/-- Two arrays with the same sixteen bytes are equal. -/
theorem Bytes16.ext_read {v w : Bytes16} (h : ∀ j, j < 16 → v.read j = w.read j) : v = w := by
  apply Vector.ext
  intro j hj
  simpa [Bytes16.read_of_lt _ hj] using h j hj

/-- The bytes of an array built from a list by writing entry `k` to byte `k`. -/
theorem Bytes16.read_ofList_prefix (l : List Byte) (v : Bytes16) (n j : Nat) (hn : n ≤ 16) :
    ((List.range n).foldl (fun v k => v.write k (l.getD k 0)) v : Bytes16).read j =
      if j < n then l.getD j 0 else v.read j := by
  induction n with
  | zero => simp
  | succ n ih =>
    rw [List.range_succ, List.foldl_append, List.foldl_cons, List.foldl_nil, Bytes16.read_write, ih (by omega)]
    by_cases h1 : n = j
    · subst h1; simp; omega
    · simp only [h1, false_and, if_false]
      by_cases h2 : j < n
      · simp [h2, show j < n + 1 by omega]
      · simp [h2, show ¬ j < n + 1 by omega]

/-- Byte `k` of `Bytes16.ofList l` is entry `k` of `l`. -/
theorem Bytes16.read_ofList (l : List Byte) {k : Nat} (hk : k < 16) : (Bytes16.ofList l).read k = l.getD k 0 := by
  rw [Bytes16.ofList, Bytes16.read_ofList_prefix l Bytes16.zero 16 k le_rfl, if_pos hk]

end Sys2Proof.Machine
end

