-- ==== Sys2Proof/Laws/Memory.lean ====
section
/-! SUPPORT. The buffers' memory: read after write, and the canonical form, which every operation keeps. -/

namespace Sys2Proof.Machine

/-- Below its lower bound a memory lists nothing. -/
theorem Memory.read_of_wfFrom_lt {m : Memory} {lo a : Nat} (h : m.wfFrom lo = true) (ha : a < lo) :
    m.read a = Memory.unlisted := by
  induction m generalizing lo with
  | nil => rfl
  | cons c rest ih =>
    obtain ⟨b, w⟩ := c
    simp only [Memory.wfFrom, Bool.and_eq_true, decide_eq_true_eq] at h
    obtain ⟨⟨h1, _⟩, h3⟩ := h
    simp only [Memory.read]
    rw [if_neg (by omega)]
    exact ih h3 (by omega)

theorem Memory.wfFrom_mono {m : Memory} {lo lo' : Nat} (h : m.wfFrom lo = true) (hl : lo' ≤ lo) :
    m.wfFrom lo' = true := by
  cases m with
  | nil => rfl
  | cons c rest =>
    obtain ⟨b, w⟩ := c
    simp only [Memory.wfFrom, Bool.and_eq_true, decide_eq_true_eq] at h ⊢
    exact ⟨⟨by omega, h.1.2⟩, h.2⟩

/-- Reading after a write. The canonical form makes a removed entry read as unlisted. -/
theorem Memory.read_write_from {m : Memory} {lo : Nat} (h : m.wfFrom lo = true) (a b : Nat) (v : Byte) :
    (m.write a v).read b = if b = a then v else m.read b := by
  induction m generalizing lo with
  | nil =>
    simp only [Memory.write]
    by_cases hv : v = Memory.unlisted
    · simp only [hv, if_true, Memory.read]
      split <;> rfl
    · simp [hv, Memory.read]
  | cons c rest ih =>
    obtain ⟨x, w⟩ := c
    simp only [Memory.wfFrom, Bool.and_eq_true, decide_eq_true_eq] at h
    obtain ⟨⟨h1, h2⟩, h3⟩ := h
    simp only [Memory.write]
    by_cases hax : a < x
    · rw [if_pos hax]
      by_cases hv : v = Memory.unlisted
      · rw [if_pos hv]
        by_cases hb : b = a
        · subst hb
          simp only [Memory.read, if_true]
          rw [if_neg (by omega), hv]
          exact Memory.read_of_wfFrom_lt h3 (by omega)
        · simp [hb]
      · rw [if_neg hv]
        simp only [Memory.read]
    · rw [if_neg hax]
      by_cases hax' : a = x
      · subst hax'
        simp only [if_true]
        by_cases hv : v = Memory.unlisted
        · rw [if_pos hv]
          by_cases hb : b = a
          · subst hb
            simp only [if_true, hv]
            exact Memory.read_of_wfFrom_lt h3 (by omega)
          · simp [hb, Memory.read]
        · rw [if_neg hv]
          simp only [Memory.read]
          by_cases hb : b = a <;> simp [hb]
      · rw [if_neg hax']
        simp only [Memory.read]
        by_cases hb : b = x
        · subst hb
          simp [Ne.symm (show a ≠ b from hax')]
        · rw [if_neg hb, if_neg hb]
          exact ih h3

theorem Memory.wfFrom_write {m : Memory} {lo : Nat} (h : m.wfFrom lo = true) {a : Nat} (ha : lo ≤ a) (v : Byte) :
    (m.write a v).wfFrom lo = true := by
  induction m generalizing lo with
  | nil =>
    simp only [Memory.write]
    by_cases hv : v = Memory.unlisted <;> simp [hv, Memory.wfFrom, ha]
  | cons c rest ih =>
    obtain ⟨x, w⟩ := c
    have h0 := h
    simp only [Memory.wfFrom, Bool.and_eq_true, decide_eq_true_eq] at h
    obtain ⟨⟨h1, h2⟩, h3⟩ := h
    simp only [Memory.write]
    by_cases hax : a < x
    · rw [if_pos hax]
      by_cases hv : v = Memory.unlisted
      · rw [if_pos hv]; exact h0
      · rw [if_neg hv]
        simp only [Memory.wfFrom, Bool.and_eq_true, decide_eq_true_eq]
        exact ⟨⟨ha, hv⟩, ⟨by omega, h2⟩, h3⟩
    · rw [if_neg hax]
      by_cases hax' : a = x
      · subst hax'
        simp only [if_true]
        by_cases hv : v = Memory.unlisted
        · rw [if_pos hv]; exact Memory.wfFrom_mono h3 (by omega)
        · rw [if_neg hv]
          simp only [Memory.wfFrom, Bool.and_eq_true, decide_eq_true_eq]
          exact ⟨⟨h1, hv⟩, h3⟩
      · rw [if_neg hax']
        simp only [Memory.wfFrom, Bool.and_eq_true, decide_eq_true_eq]
        exact ⟨⟨h1, h2⟩, ih h3 (by omega)⟩

theorem Memory.wfFrom_filter {m : Memory} {lo : Nat} (h : m.wfFrom lo = true) (f : Host.Cell → Bool) :
    Memory.wfFrom lo (m.filter f) = true := by
  induction m generalizing lo with
  | nil => rfl
  | cons c rest ih =>
    obtain ⟨x, w⟩ := c
    simp only [Memory.wfFrom, Bool.and_eq_true, decide_eq_true_eq] at h
    obtain ⟨⟨h1, h2⟩, h3⟩ := h
    rw [List.filter_cons]
    by_cases hf : f (x, w) = true
    · rw [if_pos hf]
      simp only [Memory.wfFrom, Bool.and_eq_true, decide_eq_true_eq]
      exact ⟨⟨h1, h2⟩, ih h3⟩
    · rw [if_neg hf]
      exact Memory.wfFrom_mono (ih h3) (by omega)

/-! ### The laws of each operation -/

theorem Memory.read_write {m : Memory} (h : m.wf = true) (a b : Nat) (v : Byte) :
    (m.write a v).read b = if b = a then v else m.read b := Memory.read_write_from h a b v

theorem Memory.wf_write {m : Memory} (h : m.wf = true) (a : Nat) (v : Byte) : (m.write a v).wf = true :=
  Memory.wfFrom_write h (Nat.zero_le a) v

theorem Memory.wf_writeList {m : Memory} (h : m.wf = true) (a : Nat) (l : List Byte) :
    (m.writeList a l).wf = true := by
  induction l generalizing m a with
  | nil => exact h
  | cons b bs ih => exact ih (Memory.wf_write h a b) (a + 1)

theorem Memory.read_writeList {m : Memory} (h : m.wf = true) (a b : Nat) (l : List Byte) :
    (m.writeList a l).read b = if a ≤ b ∧ b < a + l.length then l.getD (b - a) 0 else m.read b := by
  induction l generalizing m a with
  | nil => simp [Memory.writeList]
  | cons x xs ih =>
    rw [Memory.writeList, ih (Memory.wf_write h a x), Memory.read_write h, List.length_cons]
    by_cases h1 : b = a
    · subst h1; simp
    · by_cases h2 : a + 1 ≤ b ∧ b < a + 1 + xs.length
      · have h3 : b - a = (b - (a + 1)) + 1 := by omega
        rw [if_pos h2, if_pos (by omega), h3, List.getD_cons_succ]
      · rw [if_neg h2, if_neg h1, if_neg (by omega)]

theorem Memory.wf_zeroRange {m : Memory} (h : m.wf = true) (a n : Nat) : (m.zeroRange a n).wf = true :=
  Memory.wfFrom_filter h _

/-- A zeroed range reads 0, every other byte as before; no canonical form is needed. -/
theorem Memory.read_zeroRange (m : Memory) (a n b : Nat) :
    (m.zeroRange a n).read b = if a ≤ b ∧ b < a + n then 0 else m.read b := by
  induction m with
  | nil => simp [Memory.zeroRange, Memory.read, Memory.unlisted]
  | cons c rest ih =>
    obtain ⟨x, w⟩ := c
    simp only [Memory.zeroRange] at ih ⊢
    rw [List.filter_cons]
    by_cases hx : a ≤ x ∧ x < a + n
    · simp only [hx, and_self, decide_true, Bool.not_true, Bool.false_eq_true, if_false]
      rw [ih]
      by_cases hb : a ≤ b ∧ b < a + n
      · simp [hb]
      · rw [if_neg hb, if_neg hb]
        simp only [Memory.read]
        rw [if_neg]
        rintro rfl
        exact hb hx
    · simp only [hx, decide_false, Bool.not_false, if_true]
      simp only [Memory.read]
      by_cases hb : b = x
      · subst hb; simp [hx]
      · rw [if_neg hb, if_neg hb, ih]

/-- Equal contents are equal lists. -/
theorem Memory.ext_wfFrom {m m' : Memory} {lo lo' : Nat} (h : m.wfFrom lo = true) (h' : m'.wfFrom lo' = true)
    (hr : ∀ a, m.read a = m'.read a) : m = m' := by
  induction m generalizing m' lo lo' with
  | nil =>
    cases m' with
    | nil => rfl
    | cons c rest =>
      obtain ⟨x, w⟩ := c
      simp only [Memory.wfFrom, Bool.and_eq_true, decide_eq_true_eq] at h'
      have := hr x
      simp only [Memory.read, if_true] at this
      exact absurd this.symm h'.1.2
  | cons c rest ih =>
    obtain ⟨x, w⟩ := c
    simp only [Memory.wfFrom, Bool.and_eq_true, decide_eq_true_eq] at h
    obtain ⟨⟨h1, h2⟩, h3⟩ := h
    cases m' with
    | nil =>
      have := hr x
      simp only [Memory.read, if_true] at this
      exact absurd this h2
    | cons c' rest' =>
      obtain ⟨y, u⟩ := c'
      simp only [Memory.wfFrom, Bool.and_eq_true, decide_eq_true_eq] at h'
      obtain ⟨⟨h1', h2'⟩, h3'⟩ := h'
      have hxy : x = y := by
        rcases Nat.lt_trichotomy x y with hlt | heq | hgt
        · have := hr x
          simp only [Memory.read, if_true] at this
          rw [if_neg (by omega), Memory.read_of_wfFrom_lt h3' (by omega)] at this
          exact absurd this h2
        · exact heq
        · have := hr y
          simp only [Memory.read, if_true] at this
          rw [if_neg (by omega), Memory.read_of_wfFrom_lt h3 (by omega)] at this
          exact absurd this.symm h2'
      subst hxy
      have hw : w = u := by simpa [Memory.read] using hr x
      subst hw
      congr 1
      apply ih h3 h3'
      intro a
      by_cases ha : a = x
      · subst ha
        rw [Memory.read_of_wfFrom_lt h3 (by omega), Memory.read_of_wfFrom_lt h3' (by omega)]
      · simpa [Memory.read, ha] using hr a

theorem Memory.ext_wf {m m' : Memory} (h : m.wf = true) (h' : m'.wf = true) (hr : ∀ a, m.read a = m'.read a) :
    m = m' := Memory.ext_wfFrom h h' hr

/-! ### Only buffer bytes are listed -/

/-- A byte outside the buffers reads as unlisted. -/
theorem Memory.read_of_inBuffers {m : Memory} {p : Config.Params} (h : m.inBuffers p = true) {a : Nat}
    (ha : bufferByte p a = false) : m.read a = Memory.unlisted := by
  induction m with
  | nil => rfl
  | cons c rest ih =>
    obtain ⟨x, w⟩ := c
    simp only [Memory.inBuffers, List.all_cons, Bool.and_eq_true] at h
    simp only [Memory.read]
    rw [if_neg]
    · exact ih h.2
    · rintro rfl
      exact absurd h.1 (by simp [ha])

theorem Memory.inBuffers_cons (c : Host.Cell) (m : Memory) (p : Config.Params) :
    Memory.inBuffers (c :: m) p = true ↔ bufferByte p c.1 = true ∧ m.inBuffers p = true := by
  simp only [Memory.inBuffers, List.all_cons, Bool.and_eq_true]

theorem Memory.inBuffers_write {m : Memory} {p : Config.Params} (h : m.inBuffers p = true) {a : Nat}
    (ha : bufferByte p a = true) (v : Byte) : (m.write a v).inBuffers p = true := by
  induction m with
  | nil =>
    simp only [Memory.write]
    by_cases hv : v = Memory.unlisted <;> simp [hv, Memory.inBuffers, ha]
  | cons c rest ih =>
    obtain ⟨x, w⟩ := c
    have h0 := h
    rw [Memory.inBuffers_cons] at h
    simp only [Memory.write]
    split
    · split
      · exact h0
      · exact (Memory.inBuffers_cons _ _ _).2 ⟨ha, h0⟩
    · split
      · split
        · exact h.2
        · exact (Memory.inBuffers_cons _ _ _).2 ⟨ha, h.2⟩
      · exact (Memory.inBuffers_cons _ _ _).2 ⟨h.1, ih h.2⟩

theorem Memory.inBuffers_filter {m : Memory} {p : Config.Params} (h : m.inBuffers p = true) (f : Host.Cell → Bool) :
    Memory.inBuffers (m.filter f) p = true := by
  simp only [Memory.inBuffers, List.all_eq_true, List.mem_filter] at h ⊢
  intro c hc
  exact h c hc.1

theorem Memory.inBuffers_zeroRange {m : Memory} {p : Config.Params} (h : m.inBuffers p = true) (a n : Nat) :
    (m.zeroRange a n).inBuffers p = true := Memory.inBuffers_filter h _

theorem Memory.inBuffers_writeList {m : Memory} {p : Config.Params} (h : m.inBuffers p = true) (a : Nat)
    (l : List Byte) (hl : ∀ j, j < l.length → bufferByte p (a + j) = true) : (m.writeList a l).inBuffers p = true := by
  induction l generalizing m a with
  | nil => exact h
  | cons b bs ih =>
    apply ih (Memory.inBuffers_write h (by simpa using hl 0 (by simp)) b) (a + 1)
    intro j hj
    have := hl (j + 1) (by simpa using hj)
    rwa [show a + 1 + j = a + (j + 1) by omega]

/-! ### Lists of bytes -/

@[simp] theorem Memory.length_readList (m : Memory) (a n : Nat) : (m.readList a n).length = n := by
  simp [Memory.readList]

theorem Memory.getD_readList (m : Memory) (a : Nat) {n j : Nat} (h : j < n) : (m.readList a n).getD j 0 = m.read (a + j) := by
  simp [Memory.readList, List.getD, h]

/-- Two memories that agree on a range read the same list there. -/
theorem Memory.readList_congr {m m' : Memory} {a n : Nat} (h : ∀ j, j < n → m.read (a + j) = m'.read (a + j)) :
    m.readList a n = m'.readList a n := by
  simp only [Memory.readList]
  apply List.map_congr_left
  intro j hj
  exact h j (List.mem_range.mp hj)

end Sys2Proof.Machine
end

