-- ==== Sys2Proof/Laws/Bus.lean ====
section
/-! SUPPORT. The address map and the two forms of a bus transaction: what each can answer, said once. -/

namespace Sys2Proof.Machine

theorem Row.holds_iff (p : Config.Params) (r : Row) (a : Nat) :
    r.holds p a = true ↔ r.base ≤ a ∧ a < r.base + r.size p := by
  simp [Row.holds]

theorem Config.Params.valid_iff (p : Config.Params) :
    p.valid = true ↔ 1 ≤ p.aadCap ∧ p.aadCap ≤ 4096 ∧ 1 ≤ p.msgCap ∧ p.msgCap ≤ 4096 := by
  unfold Config.Params.valid Config.maxCap
  exact decide_eq_true_iff

theorem Row.mem_all (r : Row) : r ∈ Row.all := by cases r <;> decide

/-- With legal capacities the rows of the map do not overlap. -/
theorem Row.holds_unique {p : Config.Params} (hp : p.valid = true) {r r' : Row} {a : Nat}
    (h : r.holds p a = true) (h' : r'.holds p a = true) : r = r' := by
  rw [Row.holds_iff] at h h'
  rw [Config.Params.valid_iff] at hp
  cases r <;> cases r' <;>
    simp only [Row.base, Row.size, aadBase, msgInBase, msgOutBase] at h h' <;> first | rfl | omega

theorem rowAt_some_holds {p : Config.Params} {a : Nat} {r : Row} (h : rowAt p a = some r) : r.holds p a = true :=
  List.find?_some (p := fun r : Row => r.holds p a) h

theorem rowAt_eq_some_iff {p : Config.Params} (hp : p.valid = true) (a : Nat) (r : Row) :
    rowAt p a = some r ↔ r.holds p a = true := by
  constructor
  · exact rowAt_some_holds
  · intro h
    cases hr : rowAt p a with
    | none =>
      have := List.find?_eq_none.mp hr r (Row.mem_all r)
      exact absurd h this
    | some r' => rw [Row.holds_unique hp (rowAt_some_holds hr) h]

/-- The row that serves an access: aligned, all its bytes in the row, and 4 bytes wide on a 4-byte-only register. -/
theorem accessRow_eq_some_iff {p : Config.Params} (hp : p.valid = true) {off n : Nat} (hn : 0 < n) (r : Row) :
    accessRow p off n = some r ↔
      off % n = 0 ∧ r.base ≤ off ∧ off + n ≤ r.base + r.size p ∧ (r.wordOnly = true → n = 4) := by
  have hall : ∀ r : Row, ((List.range n).all fun k => r.holds p (off + k)) = true ↔
      r.base ≤ off ∧ off + n ≤ r.base + r.size p := by
    intro r
    simp only [List.all_eq_true, List.mem_range, Row.holds_iff]
    constructor
    · intro h
      have h0 := h 0 hn
      have h1 := h (n - 1) (by omega)
      omega
    · intro h k hk
      omega
  simp only [accessRow]
  by_cases h0 : off % n = 0
  · simp only [h0, ne_eq, not_true_eq_false, if_false, true_and]
    cases hr : rowAt p off with
    | none =>
      simp only [reduceCtorEq, false_iff]
      rintro ⟨h1, h2, _⟩
      have := (rowAt_eq_some_iff hp off r).2 ((Row.holds_iff p r off).2 ⟨h1, by omega⟩)
      rw [this] at hr
      exact absurd hr (by simp)
    | some r' =>
      have hr' := (Row.holds_iff p r' off).1 ((rowAt_eq_some_iff hp off r').1 hr)
      have huniq : r.base ≤ off → off + n ≤ r.base + r.size p → r' = r := fun h1 h2 =>
        Row.holds_unique hp ((Row.holds_iff p r' off).2 hr') ((Row.holds_iff p r off).2 ⟨h1, by omega⟩)
      simp only []
      by_cases ha : ((List.range n).all fun k => r'.holds p (off + k)) = true
      · rw [if_pos ha]
        have ha' := (hall r').1 ha
        by_cases hw : (r'.wordOnly && decide (n ≠ 4)) = true
        · rw [if_pos hw]
          simp only [reduceCtorEq, false_iff]
          rintro ⟨h1, h2, h3⟩
          have := huniq h1 h2
          subst this
          simp only [Bool.and_eq_true, decide_eq_true_eq] at hw
          exact hw.2 (h3 hw.1)
        · rw [if_neg hw]
          simp only [Option.some.injEq]
          constructor
          · rintro rfl
            refine ⟨ha'.1, ha'.2, fun h => ?_⟩
            by_contra h4
            exact hw (by simp [h, h4])
          · rintro ⟨h1, h2, _⟩
            exact huniq h1 h2
      · rw [if_neg ha]
        simp only [reduceCtorEq, false_iff]
        rintro ⟨h1, h2, _⟩
        have := huniq h1 h2
        subst this
        exact ha ((hall r').2 ⟨h1, h2⟩)
  · simp [h0]

/-- Some row serves exactly the accesses that `busServes` describes. -/
theorem exists_accessRow_iff {p : Config.Params} (hp : p.valid = true) {off n : Nat} (hn : n = 1 ∨ n = 2 ∨ n = 4) :
    (∃ r, accessRow p off n = some r) ↔ busServes p off n := by
  have hn0 : 0 < n := by omega
  simp only [accessRow_eq_some_iff hp hn0, busServes, bytesMapped]
  constructor
  · rintro ⟨r, h1, h2, h3, h4⟩
    refine ⟨h1, ?_⟩
    cases r <;> simp only [Row.base, Row.size, Row.wordOnly, aadBase, msgInBase, msgOutBase, forall_const,
      Bool.false_eq_true, false_imp_iff] at h2 h3 h4 <;> omega
  · rintro ⟨h1, h2⟩
    rcases h2 with (h | h | h | h | h | h | h) | ⟨h, rfl⟩
    · exact ⟨.key, h1, h.1, h.2, by simp [Row.wordOnly]⟩
    · exact ⟨.iv, h1, h.1, h.2, by simp [Row.wordOnly]⟩
    · exact ⟨.tagIn, h1, h.1, h.2, by simp [Row.wordOnly]⟩
    · exact ⟨.tagOut, h1, h.1, h.2, by simp [Row.wordOnly]⟩
    · exact ⟨.aad, h1, h.1, h.2, by simp [Row.wordOnly]⟩
    · exact ⟨.msgIn, h1, h.1, h.2, by simp [Row.wordOnly]⟩
    · exact ⟨.msgOut, h1, h.1, h.2, by simp [Row.wordOnly]⟩
    · have : off = 0 ∨ off = 4 ∨ off = 8 ∨ off = 12 ∨ off = 16 ∨ off = 20 ∨ off = 24 := by omega
      rcases this with rfl | rfl | rfl | rfl | rfl | rfl | rfl
      · exact ⟨.cmd, by simp [Row.base, Row.size]⟩
      · exact ⟨.status, by simp [Row.base, Row.size]⟩
      · exact ⟨.irqEn, by simp [Row.base, Row.size]⟩
      · exact ⟨.clkcnt, by simp [Row.base, Row.size]⟩
      · exact ⟨.aadLen, by simp [Row.base, Row.size]⟩
      · exact ⟨.msgLen, by simp [Row.base, Row.size]⟩
      · exact ⟨.tagLen, by simp [Row.base, Row.size]⟩

/-! ### Bytes of the window -/

theorem hostWritable_iff (a : Nat) : hostWritable a = true ↔ ¬(0x50 ≤ a ∧ a < 0x60) ∧ a < 0x3000 := by
  unfold hostWritable
  simp
  omega

theorem bufferByte_iff (p : Config.Params) (a : Nat) : bufferByte p a = true ↔
    (0x1000 ≤ a ∧ a < 0x1000 + p.aadCap) ∨ (0x2000 ≤ a ∧ a < 0x2000 + p.msgCap)
      ∨ (0x3000 ≤ a ∧ a < 0x3000 + p.msgCap) := by
  unfold bufferByte
  rw [Bool.or_eq_true, Bool.or_eq_true, decide_eq_true_iff, decide_eq_true_iff, decide_eq_true_iff, or_assoc]

/-- What a byte read of a row sees is the byte that `hostByte` names (rule R60). -/
theorem byteRead_eq_hostByte {s : State} {r : Row} (hw : r.wordOnly = false) {a : Nat} (h1 : r.base ≤ a)
    (h2 : a < r.base + r.size s.params) : s.byteRead r (a - r.base) = s.hostByte a := by
  cases r <;> simp only [Row.wordOnly, reduceCtorEq] at hw <;>
    simp only [Row.base, Row.size, aadBase, msgInBase, msgOutBase] at h1 h2 ⊢ <;>
    simp only [State.byteRead, State.hostByte, State.storedByte, aadBase, msgInBase, msgOutBase] <;>
    split_ifs <;> first | omega | exact congrArg s.mem.read (by omega) | rfl

/-- What a write of one byte does to the window's bytes and to every field (rules R30, R36, R61). -/
theorem byteWrite_frame {s : State} (hp : s.params.valid = true) (hm : s.mem.wf = true) {r : Row}
    (hw : r.wordOnly = false) {a : Nat} (h1 : r.base ≤ a) (h2 : a < r.base + r.size s.params) (b : Byte) :
    (∀ x, (s.byteWrite r (a - r.base) b).storedByte x =
        if x = a ∧ hostWritable x = true then b else s.storedByte x)
      ∧ (∀ x, x < 0x1000 → (s.byteWrite r (a - r.base) b).mem.read x = s.mem.read x)
      ∧ (s.byteWrite r (a - r.base) b).mem.wf = true
      ∧ (s.mem.inBuffers s.params = true → (s.byteWrite r (a - r.base) b).mem.inBuffers s.params = true)
      ∧ s.SameStatus (s.byteWrite r (a - r.base) b)
      ∧ (s.byteWrite r (a - r.base) b).tagOut = s.tagOut
      ∧ (s.byteWrite r (a - r.base) b).ie = s.ie
      ∧ (s.byteWrite r (a - r.base) b).aadLen = s.aadLen
      ∧ (s.byteWrite r (a - r.base) b).msgLen = s.msgLen
      ∧ (s.byteWrite r (a - r.base) b).tagLen = s.tagLen
      ∧ (s.byteWrite r (a - r.base) b).params = s.params
      ∧ (s.byteWrite r (a - r.base) b).events = s.events
      ∧ (s.byteWrite r (a - r.base) b).resp = s.resp := by
  rw [Config.Params.valid_iff] at hp
  refine ⟨fun x => ?_, fun x hx => ?_, ?_, fun hb => ?_, ?_⟩
  · cases r <;> simp only [Row.wordOnly, reduceCtorEq] at hw <;>
      simp only [Row.base, Row.size, aadBase, msgInBase, msgOutBase] at h1 h2 <;>
      simp only [Row.base, State.byteWrite, State.storedByte, hostWritable_iff, Bytes16.read_write,
        Memory.read_write hm, aadBase, msgInBase] <;>
      split_ifs <;> first | rfl | omega
  · cases r <;> first | rfl | skip
    all_goals
      simp only [State.byteWrite, Memory.read_write hm, Row.base, aadBase, msgInBase]
      rw [if_neg (by omega)]
  · cases r <;> first | exact hm | exact Memory.wf_write hm _ _
  · cases r <;> first | exact hb | skip
    all_goals
      refine Memory.inBuffers_write hb ?_ _
      rw [bufferByte_iff]
      simp only [Row.base, Row.size, aadBase, msgInBase] at h1 h2 ⊢
      omega
  · cases r <;> exact ⟨⟨rfl, rfl, rfl, rfl, rfl⟩, rfl, rfl, rfl, rfl, rfl, rfl, rfl, rfl⟩

/-! ### The two transactions -/

/-- A read transaction sets the response and nothing else (rules R60, R62). -/
theorem busLoad_cases (n off : Nat) (s : State) :
    (∃ r, accessRow s.params off n = some r ∧ busLoad n off s = s.respond (.data (s.rowRead r off n)))
      ∨ (accessRow s.params off n = none ∧ busLoad n off s = s.respond .busError) := by
  cases h : accessRow s.params off n <;> simp [busLoad, State.memRead, h]

/-- A write transaction ends with BusError, is ignored during BUSY, or is carried out (rules R61, R63). -/
theorem busStore_cases (n off : Nat) (v : Word) (s : State) :
    (accessRow s.params off n = none ∧ busStore n off v s = s.respond .busError)
      ∨ (∃ r, accessRow s.params off n = some r ∧ s.busy = true ∧ busStore n off v s = s.respond .ok)
      ∨ (∃ r, accessRow s.params off n = some r ∧ s.busy = false
          ∧ busStore n off v s = (s.rowWrite r off n v).respond .ok) := by
  cases h : accessRow s.params off n with
  | none => simp [busStore, State.memWrite, h]
  | some r => cases hb : s.busy <;> simp [busStore, State.memWrite, h, hb]

/-- A read transaction is a response and nothing else. -/
theorem busLoad_eq_respond (n off : Nat) (s : State) : ∃ r, busLoad n off s = s.respond r := by
  rcases busLoad_cases n off s with ⟨_, _, h⟩ | ⟨_, h⟩ <;> exact ⟨_, h⟩

/-- During BUSY a write transaction is a response and nothing else (rule R63). -/
theorem busStore_eq_respond_of_busy (n off : Nat) (v : Word) {s : State} (hb : s.busy = true) :
    ∃ r, busStore n off v s = s.respond r := by
  rcases busStore_cases n off v s with ⟨_, h⟩ | ⟨_, _, _, h⟩ | ⟨_, _, hf, _⟩
  · exact ⟨_, h⟩
  · exact ⟨_, h⟩
  · rw [hb] at hf
    cases hf

/-- `CommandWrite` (rule R200): one of the four outcomes. -/
theorem commandWrite_cases (s : State) (v : Word) :
    (v = 0 ∧ s.commandWrite v = s) ∨ (v = 1 ∧ s.commandWrite v = s.accept .encrypt)
      ∨ (v = 2 ∧ s.commandWrite v = s.accept .decrypt) ∨ (v = 3 ∧ s.commandWrite v = s.accept .clear)
      ∨ (4 ≤ v.toNat ∧ s.commandWrite v = s.refuse) := by
  by_cases h : v.extractLsb' 4 28 = 0
  · have hv : v.toNat < 16 := by
      have h2 : (v.extractLsb' 4 28).toNat = 0 := by rw [h]; rfl
      rw [BitVec.extractLsb'_toNat, Nat.shiftRight_eq_div_pow] at h2
      have := v.isLt
      omega
    have hv' : v = BitVec.ofNat 32 v.toNat := by simp
    generalize v.toNat = n at hv hv'
    subst hv'
    have : n = 0 ∨ n = 1 ∨ n = 2 ∨ n = 3 ∨ 4 ≤ n := by omega
    rcases this with rfl | rfl | rfl | rfl | h4
    · exact .inl ⟨rfl, rfl⟩
    · exact .inr (.inl ⟨rfl, rfl⟩)
    · exact .inr (.inr (.inl ⟨rfl, rfl⟩))
    · exact .inr (.inr (.inr (.inl ⟨rfl, rfl⟩)))
    · refine .inr (.inr (.inr (.inr ⟨h4, ?_⟩)))
      interval_cases n <;> rfl
  · refine .inr (.inr (.inr (.inr ⟨?_, ?_⟩)))
    · by_contra hlt
      apply h
      apply BitVec.eq_of_toNat_eq
      rw [BitVec.extractLsb'_toNat, Nat.shiftRight_eq_div_pow]
      have : v.toNat / 2 ^ 4 = 0 := by omega
      rw [this]; rfl
    · have : decodeCommand v = .illegalCommand := by
        rw [decodeCommand, if_pos h]
      simp [State.commandWrite, this]

end Sys2Proof.Machine
end

