-- ==== Sys2Proof/Laws/Decode.lean ====
section
/-! SUPPORT. The fields of a bus request as numbers, and the fields of a packed request. -/

namespace Sys2Proof

theorem Request.we_eq (w : Request) : Request.we w = decide (w.toNat / 2 ^ 50 % 2 = 1) := by
  rw [Request.we, BitVec.getLsbD, Nat.testBit_eq_decide_div_mod_eq]

theorem Request.size_toNat (w : Request) : (Request.size w).toNat = w.toNat / 2 ^ 48 % 4 := by
  simp [Request.size, Nat.shiftRight_eq_div_pow]

theorem Request.off_eq (w : Request) : Request.off w = w.toNat / 2 ^ 32 % 65536 := by
  simp [Request.off, Nat.shiftRight_eq_div_pow]

theorem Request.wdata_toNat (w : Request) : (Request.wdata w).toNat = w.toNat % 2 ^ 32 := by
  simp [Request.wdata]

/-- The fields of a packed request do not overlap. -/
theorem packRequest_toNat (we : Bool) (size : BitVec 2) (off : Nat) (d : Word) :
    (packRequest we size off d).toNat =
      we.toNat * 2 ^ 50 + size.toNat * 2 ^ 48 + off % 65536 * 2 ^ 32 + d.toNat := by
  unfold packRequest
  rw [BitVec.toNat_append, BitVec.toNat_append, BitVec.toNat_append]
  simp only [BitVec.toNat_ofBool, BitVec.toNat_ofNat]
  rw [← Nat.shiftLeft_add_eq_or_of_lt d.isLt, ← Nat.shiftLeft_add_eq_or_of_lt (Nat.mod_lt _ (by decide)),
    ← Nat.shiftLeft_add_eq_or_of_lt size.isLt]
  simp only [Nat.shiftLeft_eq]
  ring_nf

@[simp] theorem packRequest_we (we : Bool) (size : BitVec 2) (off : Nat) (d : Word) :
    Request.we (packRequest we size off d) = we := by
  rw [Request.we_eq, packRequest_toNat]
  have := size.isLt
  have := d.isLt
  cases we <;> simp <;> omega

@[simp] theorem packRequest_size (we : Bool) (size : BitVec 2) (off : Nat) (d : Word) :
    (Request.size (packRequest we size off d)).toNat = size.toNat := by
  rw [Request.size_toNat, packRequest_toNat]
  have := size.isLt
  have := d.isLt
  cases we <;> simp <;> omega

@[simp] theorem packRequest_off (we : Bool) (size : BitVec 2) (off : Nat) (d : Word) :
    Request.off (packRequest we size off d) = off % 65536 := by
  rw [Request.off_eq, packRequest_toNat]
  have := size.isLt
  have := d.isLt
  cases we <;> simp <;> omega

@[simp] theorem packRequest_wdata (we : Bool) (size : BitVec 2) (off : Nat) (d : Word) :
    Request.wdata (packRequest we size off d) = d := by
  apply BitVec.eq_of_toNat_eq
  rw [Request.wdata_toNat, packRequest_toNat]
  have := size.isLt
  have := d.isLt
  cases we <;> simp <;> omega

end Sys2Proof
end

