-- ==== Sys2Proof/Laws/State.lean ====
section
/-! SUPPORT. One lemma per field per update of the state, so that no proof unfolds a record update. -/

namespace Sys2Proof.Machine

variable (s : State)

/-! ### `State.accept` -/

@[simp] theorem State.accept_nfsr (op : Command) : (s.accept op).nfsr = s.nfsr := rfl
@[simp] theorem State.accept_pending (op : Command) : (s.accept op).pending = some op := rfl
@[simp] theorem State.accept_done (op : Command) : (s.accept op).done = false := rfl
@[simp] theorem State.accept_result (op : Command) : (s.accept op).result = .none := rfl
@[simp] theorem State.accept_ie (op : Command) : (s.accept op).ie = s.ie := rfl
@[simp] theorem State.accept_clkcnt (op : Command) : (s.accept op).clkcnt = 0 := rfl
@[simp] theorem State.accept_aadLen (op : Command) : (s.accept op).aadLen = s.aadLen := rfl
@[simp] theorem State.accept_msgLen (op : Command) : (s.accept op).msgLen = s.msgLen := rfl
@[simp] theorem State.accept_tagLen (op : Command) : (s.accept op).tagLen = s.tagLen := rfl
@[simp] theorem State.accept_key (op : Command) : (s.accept op).key = s.key := rfl
@[simp] theorem State.accept_iv (op : Command) : (s.accept op).iv = s.iv := rfl
@[simp] theorem State.accept_tagIn (op : Command) : (s.accept op).tagIn = s.tagIn := rfl
@[simp] theorem State.accept_tagOut (op : Command) : (s.accept op).tagOut = Bytes16.zero := rfl
@[simp] theorem State.accept_mem (op : Command) : (s.accept op).mem = s.mem.zeroRange msgOutBase s.params.msgCap := rfl
@[simp] theorem State.accept_params (op : Command) : (s.accept op).params = s.params := rfl
@[simp] theorem State.accept_events (op : Command) : (s.accept op).events = s.events := rfl
@[simp] theorem State.accept_resp (op : Command) : (s.accept op).resp = s.resp := rfl

/-! ### `State.refuse` -/

@[simp] theorem State.refuse_nfsr : s.refuse.nfsr = s.nfsr := rfl
@[simp] theorem State.refuse_pending : s.refuse.pending = s.pending := rfl
@[simp] theorem State.refuse_done : s.refuse.done = true := rfl
@[simp] theorem State.refuse_result : s.refuse.result = .illegalCommand := rfl
@[simp] theorem State.refuse_ie : s.refuse.ie = s.ie := rfl
@[simp] theorem State.refuse_clkcnt : s.refuse.clkcnt = s.clkcnt := rfl
@[simp] theorem State.refuse_aadLen : s.refuse.aadLen = s.aadLen := rfl
@[simp] theorem State.refuse_msgLen : s.refuse.msgLen = s.msgLen := rfl
@[simp] theorem State.refuse_tagLen : s.refuse.tagLen = s.tagLen := rfl
@[simp] theorem State.refuse_key : s.refuse.key = s.key := rfl
@[simp] theorem State.refuse_iv : s.refuse.iv = s.iv := rfl
@[simp] theorem State.refuse_tagIn : s.refuse.tagIn = s.tagIn := rfl
@[simp] theorem State.refuse_tagOut : s.refuse.tagOut = s.tagOut := rfl
@[simp] theorem State.refuse_mem : s.refuse.mem = s.mem := rfl
@[simp] theorem State.refuse_params : s.refuse.params = s.params := rfl
@[simp] theorem State.refuse_events : s.refuse.events = s.events := rfl
@[simp] theorem State.refuse_resp : s.refuse.resp = s.resp := rfl

/-! ### `State.complete` -/

@[simp] theorem State.complete_nfsr (code : ResultCode) : (s.complete code).nfsr = 0 := rfl
@[simp] theorem State.complete_pending (code : ResultCode) : (s.complete code).pending = none := rfl
@[simp] theorem State.complete_done (code : ResultCode) : (s.complete code).done = true := rfl
@[simp] theorem State.complete_result (code : ResultCode) : (s.complete code).result = code := rfl
@[simp] theorem State.complete_ie (code : ResultCode) : (s.complete code).ie = s.ie := rfl
@[simp] theorem State.complete_clkcnt (code : ResultCode) : (s.complete code).clkcnt = s.clkcnt := rfl
@[simp] theorem State.complete_aadLen (code : ResultCode) : (s.complete code).aadLen = s.aadLen := rfl
@[simp] theorem State.complete_msgLen (code : ResultCode) : (s.complete code).msgLen = s.msgLen := rfl
@[simp] theorem State.complete_tagLen (code : ResultCode) : (s.complete code).tagLen = s.tagLen := rfl
@[simp] theorem State.complete_key (code : ResultCode) : (s.complete code).key = s.key := rfl
@[simp] theorem State.complete_iv (code : ResultCode) : (s.complete code).iv = s.iv := rfl
@[simp] theorem State.complete_tagIn (code : ResultCode) : (s.complete code).tagIn = s.tagIn := rfl
@[simp] theorem State.complete_tagOut (code : ResultCode) : (s.complete code).tagOut = s.tagOut := rfl
@[simp] theorem State.complete_mem (code : ResultCode) : (s.complete code).mem = s.mem := rfl
@[simp] theorem State.complete_params (code : ResultCode) : (s.complete code).params = s.params := rfl
@[simp] theorem State.complete_events (code : ResultCode) : (s.complete code).events = s.events := rfl
@[simp] theorem State.complete_resp (code : ResultCode) : (s.complete code).resp = s.resp := rfl

/-! ### `State.acknowledge` -/

@[simp] theorem State.acknowledge_nfsr : s.acknowledge.nfsr = s.nfsr := rfl
@[simp] theorem State.acknowledge_pending : s.acknowledge.pending = s.pending := rfl
@[simp] theorem State.acknowledge_done : s.acknowledge.done = false := rfl
@[simp] theorem State.acknowledge_result : s.acknowledge.result = s.result := rfl
@[simp] theorem State.acknowledge_ie : s.acknowledge.ie = s.ie := rfl
@[simp] theorem State.acknowledge_clkcnt : s.acknowledge.clkcnt = s.clkcnt := rfl
@[simp] theorem State.acknowledge_aadLen : s.acknowledge.aadLen = s.aadLen := rfl
@[simp] theorem State.acknowledge_msgLen : s.acknowledge.msgLen = s.msgLen := rfl
@[simp] theorem State.acknowledge_tagLen : s.acknowledge.tagLen = s.tagLen := rfl
@[simp] theorem State.acknowledge_key : s.acknowledge.key = s.key := rfl
@[simp] theorem State.acknowledge_iv : s.acknowledge.iv = s.iv := rfl
@[simp] theorem State.acknowledge_tagIn : s.acknowledge.tagIn = s.tagIn := rfl
@[simp] theorem State.acknowledge_tagOut : s.acknowledge.tagOut = s.tagOut := rfl
@[simp] theorem State.acknowledge_mem : s.acknowledge.mem = s.mem := rfl
@[simp] theorem State.acknowledge_params : s.acknowledge.params = s.params := rfl
@[simp] theorem State.acknowledge_events : s.acknowledge.events = s.events := rfl
@[simp] theorem State.acknowledge_resp : s.acknowledge.resp = s.resp := rfl

/-! ### `State.respond` -/

@[simp] theorem State.respond_nfsr (r : BusResponse) : (s.respond r).nfsr = s.nfsr := rfl
@[simp] theorem State.respond_pending (r : BusResponse) : (s.respond r).pending = s.pending := rfl
@[simp] theorem State.respond_done (r : BusResponse) : (s.respond r).done = s.done := rfl
@[simp] theorem State.respond_result (r : BusResponse) : (s.respond r).result = s.result := rfl
@[simp] theorem State.respond_ie (r : BusResponse) : (s.respond r).ie = s.ie := rfl
@[simp] theorem State.respond_clkcnt (r : BusResponse) : (s.respond r).clkcnt = s.clkcnt := rfl
@[simp] theorem State.respond_aadLen (r : BusResponse) : (s.respond r).aadLen = s.aadLen := rfl
@[simp] theorem State.respond_msgLen (r : BusResponse) : (s.respond r).msgLen = s.msgLen := rfl
@[simp] theorem State.respond_tagLen (r : BusResponse) : (s.respond r).tagLen = s.tagLen := rfl
@[simp] theorem State.respond_key (r : BusResponse) : (s.respond r).key = s.key := rfl
@[simp] theorem State.respond_iv (r : BusResponse) : (s.respond r).iv = s.iv := rfl
@[simp] theorem State.respond_tagIn (r : BusResponse) : (s.respond r).tagIn = s.tagIn := rfl
@[simp] theorem State.respond_tagOut (r : BusResponse) : (s.respond r).tagOut = s.tagOut := rfl
@[simp] theorem State.respond_mem (r : BusResponse) : (s.respond r).mem = s.mem := rfl
@[simp] theorem State.respond_params (r : BusResponse) : (s.respond r).params = s.params := rfl
@[simp] theorem State.respond_events (r : BusResponse) : (s.respond r).events = s.events := rfl
@[simp] theorem State.respond_resp (r : BusResponse) : (s.respond r).resp = some r := rfl

/-! ### `State.writeMsgOut` -/

@[simp] theorem State.writeMsgOut_nfsr (out : List Byte) : (s.writeMsgOut out).nfsr = s.nfsr := rfl
@[simp] theorem State.writeMsgOut_pending (out : List Byte) : (s.writeMsgOut out).pending = s.pending := rfl
@[simp] theorem State.writeMsgOut_done (out : List Byte) : (s.writeMsgOut out).done = s.done := rfl
@[simp] theorem State.writeMsgOut_result (out : List Byte) : (s.writeMsgOut out).result = s.result := rfl
@[simp] theorem State.writeMsgOut_ie (out : List Byte) : (s.writeMsgOut out).ie = s.ie := rfl
@[simp] theorem State.writeMsgOut_clkcnt (out : List Byte) : (s.writeMsgOut out).clkcnt = s.clkcnt := rfl
@[simp] theorem State.writeMsgOut_aadLen (out : List Byte) : (s.writeMsgOut out).aadLen = s.aadLen := rfl
@[simp] theorem State.writeMsgOut_msgLen (out : List Byte) : (s.writeMsgOut out).msgLen = s.msgLen := rfl
@[simp] theorem State.writeMsgOut_tagLen (out : List Byte) : (s.writeMsgOut out).tagLen = s.tagLen := rfl
@[simp] theorem State.writeMsgOut_key (out : List Byte) : (s.writeMsgOut out).key = s.key := rfl
@[simp] theorem State.writeMsgOut_iv (out : List Byte) : (s.writeMsgOut out).iv = s.iv := rfl
@[simp] theorem State.writeMsgOut_tagIn (out : List Byte) : (s.writeMsgOut out).tagIn = s.tagIn := rfl
@[simp] theorem State.writeMsgOut_tagOut (out : List Byte) : (s.writeMsgOut out).tagOut = s.tagOut := rfl
@[simp] theorem State.writeMsgOut_mem (out : List Byte) : (s.writeMsgOut out).mem = s.mem.writeList msgOutBase out := rfl
@[simp] theorem State.writeMsgOut_params (out : List Byte) : (s.writeMsgOut out).params = s.params := rfl
@[simp] theorem State.writeMsgOut_events (out : List Byte) : (s.writeMsgOut out).events = s.events := rfl
@[simp] theorem State.writeMsgOut_resp (out : List Byte) : (s.writeMsgOut out).resp = s.resp := rfl

/-! ### `State.setClkcnt` -/

@[simp] theorem State.setClkcnt_nfsr (n : Nat) : (s.setClkcnt n).nfsr = s.nfsr := rfl
@[simp] theorem State.setClkcnt_pending (n : Nat) : (s.setClkcnt n).pending = s.pending := rfl
@[simp] theorem State.setClkcnt_done (n : Nat) : (s.setClkcnt n).done = s.done := rfl
@[simp] theorem State.setClkcnt_result (n : Nat) : (s.setClkcnt n).result = s.result := rfl
@[simp] theorem State.setClkcnt_ie (n : Nat) : (s.setClkcnt n).ie = s.ie := rfl
@[simp] theorem State.setClkcnt_clkcnt (n : Nat) : (s.setClkcnt n).clkcnt = BitVec.ofNat 32 n := rfl
@[simp] theorem State.setClkcnt_aadLen (n : Nat) : (s.setClkcnt n).aadLen = s.aadLen := rfl
@[simp] theorem State.setClkcnt_msgLen (n : Nat) : (s.setClkcnt n).msgLen = s.msgLen := rfl
@[simp] theorem State.setClkcnt_tagLen (n : Nat) : (s.setClkcnt n).tagLen = s.tagLen := rfl
@[simp] theorem State.setClkcnt_key (n : Nat) : (s.setClkcnt n).key = s.key := rfl
@[simp] theorem State.setClkcnt_iv (n : Nat) : (s.setClkcnt n).iv = s.iv := rfl
@[simp] theorem State.setClkcnt_tagIn (n : Nat) : (s.setClkcnt n).tagIn = s.tagIn := rfl
@[simp] theorem State.setClkcnt_tagOut (n : Nat) : (s.setClkcnt n).tagOut = s.tagOut := rfl
@[simp] theorem State.setClkcnt_mem (n : Nat) : (s.setClkcnt n).mem = s.mem := rfl
@[simp] theorem State.setClkcnt_params (n : Nat) : (s.setClkcnt n).params = s.params := rfl
@[simp] theorem State.setClkcnt_events (n : Nat) : (s.setClkcnt n).events = s.events := rfl
@[simp] theorem State.setClkcnt_resp (n : Nat) : (s.setClkcnt n).resp = s.resp := rfl

/-! ### `State.setTagOut` -/

@[simp] theorem State.setTagOut_nfsr (tag : Bytes16) : (s.setTagOut tag).nfsr = s.nfsr := rfl
@[simp] theorem State.setTagOut_pending (tag : Bytes16) : (s.setTagOut tag).pending = s.pending := rfl
@[simp] theorem State.setTagOut_done (tag : Bytes16) : (s.setTagOut tag).done = s.done := rfl
@[simp] theorem State.setTagOut_result (tag : Bytes16) : (s.setTagOut tag).result = s.result := rfl
@[simp] theorem State.setTagOut_ie (tag : Bytes16) : (s.setTagOut tag).ie = s.ie := rfl
@[simp] theorem State.setTagOut_clkcnt (tag : Bytes16) : (s.setTagOut tag).clkcnt = s.clkcnt := rfl
@[simp] theorem State.setTagOut_aadLen (tag : Bytes16) : (s.setTagOut tag).aadLen = s.aadLen := rfl
@[simp] theorem State.setTagOut_msgLen (tag : Bytes16) : (s.setTagOut tag).msgLen = s.msgLen := rfl
@[simp] theorem State.setTagOut_tagLen (tag : Bytes16) : (s.setTagOut tag).tagLen = s.tagLen := rfl
@[simp] theorem State.setTagOut_key (tag : Bytes16) : (s.setTagOut tag).key = s.key := rfl
@[simp] theorem State.setTagOut_iv (tag : Bytes16) : (s.setTagOut tag).iv = s.iv := rfl
@[simp] theorem State.setTagOut_tagIn (tag : Bytes16) : (s.setTagOut tag).tagIn = s.tagIn := rfl
@[simp] theorem State.setTagOut_tagOut (tag : Bytes16) : (s.setTagOut tag).tagOut = tag := rfl
@[simp] theorem State.setTagOut_mem (tag : Bytes16) : (s.setTagOut tag).mem = s.mem := rfl
@[simp] theorem State.setTagOut_params (tag : Bytes16) : (s.setTagOut tag).params = s.params := rfl
@[simp] theorem State.setTagOut_events (tag : Bytes16) : (s.setTagOut tag).events = s.events := rfl
@[simp] theorem State.setTagOut_resp (tag : Bytes16) : (s.setTagOut tag).resp = s.resp := rfl

/-! ### Derived views -/

theorem State.busy_eq : s.busy = s.pending.isSome := rfl
@[simp] theorem State.accept_busy (op : Command) : (s.accept op).busy = true := rfl
@[simp] theorem State.complete_busy (code : ResultCode) : (s.complete code).busy = false := rfl
@[simp] theorem State.refuse_busy : s.refuse.busy = s.busy := rfl
@[simp] theorem State.acknowledge_busy : s.acknowledge.busy = s.busy := rfl
@[simp] theorem State.respond_busy (r : BusResponse) : (s.respond r).busy = s.busy := rfl
@[simp] theorem State.noOperation_eq : s.noOperation = s := rfl

/-- BUSY = 0 is PENDING = none (rule R26). -/
theorem State.busy_eq_false_iff : s.busy = false ↔ s.pending = none := by
  simp [State.busy]

end Sys2Proof.Machine
end

