-- ==== Sys2Proof/Laws/Engine.lean ====
section
/-! SUPPORT. What each engine step can end in, said once. -/

namespace Sys2Proof.Machine

theorem State.lengthOk_iff (s : State) :
    s.lengthOk = true ↔ s.aadLen.toNat ≤ s.params.aadCap ∧ s.msgLen.toNat ≤ s.params.msgCap := by
  simp [State.lengthOk]

/-- The run of ENCRYPT on the buffers' bytes. -/
theorem State.runEncrypt_eq (s : State) : s.runEncrypt =
    aeadEncrypt s.key s.iv (s.mem.readList 0x1000 s.aadLen.toNat) (s.mem.readList 0x2000 s.msgLen.toNat) := by
  unfold State.runEncrypt State.aadBytes State.msgBytes aadBase msgInBase
  exact rfl

/-- The run of DECRYPT on the buffers' bytes. -/
theorem State.runDecrypt_eq (s : State) : s.runDecrypt =
    aeadDecrypt s.key s.iv (s.mem.readList 0x1000 s.aadLen.toNat) (s.mem.readList 0x2000 s.msgLen.toNat) := by
  unfold State.runDecrypt State.aadBytes State.msgBytes aadBase msgInBase
  exact rfl

/-- The two ends of ENCRYPT (rule R203). -/
theorem engineEncrypt_cases (s : State) :
    (s.lengthOk = true ∧ engineEncrypt s =
        (((s.writeMsgOut s.runEncrypt.out).setTagOut s.runEncrypt.tag).setClkcnt s.runEncrypt.clocks).complete .ok)
      ∨ (s.lengthOk = false ∧ engineEncrypt s = s.complete .lengthError) := by
  unfold engineEncrypt
  cases h : s.lengthOk
  · exact .inr ⟨rfl, rfl⟩
  · exact .inl ⟨rfl, rfl⟩

/-- The four ends of DECRYPT (rule R204). -/
theorem engineDecrypt_cases (s : State) :
    (s.tagLen ≠ 16 ∧ engineDecrypt s = s.complete .tagLengthError)
      ∨ (s.tagLen = 16 ∧ s.lengthOk = false ∧ engineDecrypt s = s.complete .lengthError)
      ∨ (s.tagLen = 16 ∧ s.lengthOk = true ∧ ctEq s.runDecrypt.tag s.tagIn = true ∧ engineDecrypt s =
          ((s.setClkcnt s.runDecrypt.clocks).writeMsgOut s.runDecrypt.out).complete .ok)
      ∨ (s.tagLen = 16 ∧ s.lengthOk = true ∧ ctEq s.runDecrypt.tag s.tagIn = false ∧ engineDecrypt s =
          (s.setClkcnt s.runDecrypt.clocks).complete .authenticationFail) := by
  by_cases h : s.tagLen = 16
  · cases hl : s.lengthOk
    · exact .inr (.inl ⟨h, rfl, by simp [engineDecrypt, h, hl]⟩)
    · cases hc : ctEq s.runDecrypt.tag s.tagIn
      · exact .inr (.inr (.inr ⟨h, rfl, rfl, by simp [engineDecrypt, h, hl, hc]⟩))
      · exact .inr (.inr (.inl ⟨h, rfl, rfl, by simp [engineDecrypt, h, hl, hc]⟩))
  · exact .inl ⟨h, by unfold engineDecrypt; rw [if_pos h]⟩

/-- What every engine step does, whatever the command and the outcome: it completes (rule R236), and leaves IRQ_EN and
the model's own fields. -/
structure EngineFrame (s t : State) : Prop where
  pending : t.pending = none
  done : t.done = true
  result : t.result ≠ .none
  nfsr : t.nfsr = 0
  setting : s.SameSetting t

theorem engineEncrypt_frame (s : State) : EngineFrame s (engineEncrypt s) := by
  rcases engineEncrypt_cases s with ⟨_, h⟩ | ⟨_, h⟩ <;> rw [h] <;> constructor <;> simp [State.SameSetting]

theorem engineDecrypt_frame (s : State) : EngineFrame s (engineDecrypt s) := by
  rcases engineDecrypt_cases s with ⟨_, h⟩ | ⟨_, _, h⟩ | ⟨_, _, _, h⟩ | ⟨_, _, _, h⟩ <;> rw [h] <;>
    constructor <;> simp [State.SameSetting]

theorem engineClear_frame (s : State) : EngineFrame s (engineClear s) := by
  constructor <;> simp [engineClear, State.SameSetting]

end Sys2Proof.Machine
end

