-- ==== Sys2Proof/Laws/PerInstr.lean ====
section
/-! SUPPORT. Statements for all instructions, one lemma an instruction. -/

namespace Sys2Proof.Laws.Accepted

/-- The encoder gives no word that the decoder rejects (spec/30_encoding.md rules R96, R97), whatever the operands. -/
def Statement (i : Instr) : Prop := decode (encode i) ≠ .illegalCommand ∧ decode (encode i) ≠ .reservedSize

theorem nop : Statement .nop := by unfold Statement; decide

theorem encrypt : Statement .encrypt := by unfold Statement; decide

theorem decrypt : Statement .decrypt := by unfold Statement; decide

theorem clear : Statement .clear := by unfold Statement; decide

theorem ld8 (off : Nat) (wdata : Word) : Statement (.ld8 off wdata) := by
  simp [Statement, encode, decode, decodeRequest]

theorem ld16 (off : Nat) (wdata : Word) : Statement (.ld16 off wdata) := by
  simp [Statement, encode, decode, decodeRequest]

theorem ld32 (off : Nat) (wdata : Word) : Statement (.ld32 off wdata) := by
  simp [Statement, encode, decode, decodeRequest]

theorem st8 (off : Nat) (wdata : Word) : Statement (.st8 off wdata) := by
  simp [Statement, encode, decode, decodeRequest]

theorem st16 (off : Nat) (wdata : Word) : Statement (.st16 off wdata) := by
  simp [Statement, encode, decode, decodeRequest]

theorem st32 (off : Nat) (wdata : Word) : Statement (.st32 off wdata) := by
  simp [Statement, encode, decode, decodeRequest]

end Sys2Proof.Laws.Accepted
end

