-- ==== Sys2Proof/Laws/RegisterCore.lean ====
section
/-! SUPPORT. Cells of the register after the elementary updates, and the parts of a clock. -/

namespace Sys2Proof.Machine

theorem getLsbD_xorCell (t : Nfsr) (i : Nat) (b : Bool) (j : Nat) (hi : i < 293) :
    (xorCell t i b).getLsbD j = (t.getLsbD j ^^ (b && decide (i = j))) := by
  cases b
  · simp [xorCell]
  · by_cases hij : i = j
    · subst hij
      simp [xorCell, hi]
    · simp [xorCell, BitVec.getLsbD_twoPow, hij]

/-- The shifted register: the top cell is the injected bit, every other cell the next higher one (rule R128). -/
theorem getLsbD_shiftIn (t : Nfsr) (fp : Bool) {j : Nat} (hj : j < 293) :
    (shiftIn t fp).getLsbD j = if j = 292 then fp else t.getLsbD (j + 1) := by
  rw [shiftIn, getLsbD_xorCell _ _ _ _ (by omega), BitVec.getLsbD_ushiftRight]
  by_cases h : j = 292
  · subst h
    simp
  · rw [if_neg h, show (decide (292 = j)) = false from decide_eq_false (by omega), Nat.add_comm 1 j]
    simp

@[simp] theorem clock_reg (s : Nfsr) (dir : Direction) (b ca cb : Bool) :
    (clock s dir b ca cb).1 =
      shiftIn (diffuse s) (feedback (diffuse s) ca cb ^^ plainBit dir (ksg (diffuse s)) b) := by
  simp only [clock, fbk]

@[simp] theorem clock_out (s : Nfsr) (dir : Direction) (b ca cb : Bool) :
    (clock s dir b ca cb).2.1 = (ksg (diffuse s) ^^ b) := by
  simp only [clock, fbk, outBit]

@[simp] theorem clock_ks (s : Nfsr) (dir : Direction) (b ca cb : Bool) :
    (clock s dir b ca cb).2.2 = ksg (diffuse s) := by
  simp only [clock, fbk]

@[simp] theorem plainBit_enc (ks b : Bool) : plainBit .enc ks b = b := rfl
@[simp] theorem plainBit_dec (ks b : Bool) : plainBit .dec ks b = (ks ^^ b) := rfl

theorem getLsbD_setBit (v : Byte) (i : Nat) (b : Bool) (j : Nat) (hj : j < 8) :
    (setBit v i b).getLsbD j = if i = j then b else v.getLsbD j := by
  cases b <;> by_cases h : i = j
  · subst h; simp [setBit, hj]
  · simp [setBit, h, hj]
    intro _; omega
  · subst h; simp [setBit, hj]
  · simp [setBit, h]

end Sys2Proof.Machine
end

