-- ==== Sys2Proof/Laws/Session.lean ====
section
/-! SUPPORT. Sessions: `settle` only orders evaluation, so a phase is the plain fold of its step; clocks counted by a
phase. -/

namespace Sys2Proof.Machine

@[simp] theorem Session.settle_eq {α : Type} (ss : Session) (k : Session → α) : ss.settle k = k ss := by
  obtain ⟨reg, clocks⟩ := ss
  have h0 : ∀ n, reg.toNat = n → BitVec.ofNat 293 n = reg := fun n h => by rw [← h]; simp
  simp only [Session.settle]
  split <;> rename_i h <;> have := h0 _ h <;> simp_all

theorem Session.fold_eq_foldl {α : Type} (f : Session → α → Session) (ss : Session) (l : List α) :
    Session.fold f ss l = l.foldl f ss := by
  induction l generalizing ss with
  | nil => rfl
  | cons x xs ih => simp [Session.fold, ih]

@[simp] theorem Session.collect_nil {α β : Type} (f : Session → α → Session × β) (ss : Session) :
    Session.collect f ss [] = (ss, []) := rfl

theorem Session.collect_cons {α β : Type} (f : Session → α → Session × β) (ss : Session) (x : α) (xs : List α) :
    Session.collect f ss (x :: xs) =
      ((Session.collect f (f ss x).1 xs).1, (f ss x).2 :: (Session.collect f (f ss x).1 xs).2) := by
  simp [Session.collect]

/-- The session after a phase is that of the same phase with its outputs discarded. -/
theorem Session.collect_fst {α β : Type} (f : Session → α → Session × β) (ss : Session) (l : List α) :
    (Session.collect f ss l).1 = l.foldl (fun ss x => (f ss x).1) ss := by
  induction l generalizing ss with
  | nil => rfl
  | cons x xs ih => rw [Session.collect_cons]; exact ih _

@[simp] theorem Session.length_collect {α β : Type} (f : Session → α → Session × β) (ss : Session) (l : List α) :
    (Session.collect f ss l).2.length = l.length := by
  induction l generalizing ss with
  | nil => rfl
  | cons x xs ih => rw [Session.collect_cons]; simp [ih]

/-- A phase whose every step performs `c` clocks performs `c` clocks for each item. -/
theorem Session.foldl_clocks {α : Type} (f : Session → α → Session) (c : Nat)
    (hf : ∀ ss x, (f ss x).clocks = ss.clocks + c) (ss : Session) (l : List α) :
    (l.foldl f ss).clocks = ss.clocks + c * l.length := by
  induction l generalizing ss with
  | nil => simp
  | cons x xs ih => rw [List.foldl_cons, ih, hf, List.length_cons, Nat.mul_succ]; omega

@[simp] theorem Session.clock_clocks (ss : Session) (dir : Direction) (b ca cb : Bool) :
    (ss.clock dir b ca cb).1.clocks = ss.clocks + 1 := rfl

@[simp] theorem Session.clock_reg (ss : Session) (dir : Direction) (b ca cb : Bool) :
    (ss.clock dir b ca cb).1.reg = (Machine.clock ss.reg dir b ca cb).1 := rfl

@[simp] theorem Session.clock_out (ss : Session) (dir : Direction) (b ca cb : Bool) :
    (ss.clock dir b ca cb).2.1 = (Machine.clock ss.reg dir b ca cb).2.1 := rfl

@[simp] theorem Session.clock_ks (ss : Session) (dir : Direction) (b ca cb : Bool) :
    (ss.clock dir b ca cb).2.2 = (Machine.clock ss.reg dir b ca cb).2.2 := rfl

/-- Process yields one output byte for each input byte. -/
theorem length_processEnc (ss : Session) (l : List Byte) : (processEnc ss l).2.length = l.length :=
  Session.length_collect _ _ _

theorem length_processDec (ss : Session) (l : List Byte) : (processDec ss l).2.length = l.length :=
  Session.length_collect _ _ _

theorem length_aeadEncrypt_out (key iv : Bytes16) (aad msg : List Byte) :
    (aeadEncrypt key iv aad msg).out.length = msg.length := length_processEnc _ _

theorem length_aeadDecrypt_out (key iv : Bytes16) (aad ct : List Byte) :
    (aeadDecrypt key iv aad ct).out.length = ct.length := length_processDec _ _

end Sys2Proof.Machine
end

