-- ==== Sys2Proof/Laws/Step.lean ====
section
/-! SUPPORT. What one step can do, said once: which instruction runs in which state, and that every instruction answers
a next state. -/

namespace Sys2Proof.Machine

/-- The state an instruction leads to: every meaning answers a next state. -/
def Instr.effect (i : Instr) (s : State) : State :=
  match i with
  | .nop => s
  | .encrypt => engineEncrypt s
  | .decrypt => engineDecrypt s
  | .clear => engineClear s
  | .ld8 off _ => busLoad 1 off s
  | .ld16 off _ => busLoad 2 off s
  | .ld32 off _ => busLoad 4 off s
  | .st8 off wdata => busStore 1 off wdata s
  | .st16 off wdata => busStore 2 off wdata s
  | .st32 off wdata => busStore 4 off wdata s

theorem exec_eq_next (i : Instr) (s : State) : exec i s = .next (Instr.effect i s) := by
  cases i <;> rfl

/-- The instruction a request decodes to is a read or a write transaction. -/
theorem effect_of_request {req : Request} {i : Instr} (h : decode (.request req) = .instr i) :
    (∃ n off, ∀ s, Instr.effect i s = busLoad n off s)
      ∨ (∃ n off v, 0 < n ∧ ∀ s, Instr.effect i s = busStore n off v s) := by
  simp only [decode, decodeRequest] at h
  split at h <;>
    first
    | (injection h with h
       subst h
       first
       | exact .inl ⟨_, _, fun _ => rfl⟩
       | exact .inr ⟨_, _, _, by omega, fun _ => rfl⟩)
    | cases h

/-- A latched command's step completes (rule R236). -/
theorem effect_of_command (op : Command) (s : State) : EngineFrame s (Instr.effect op.instr s) := by
  cases op
  · exact engineEncrypt_frame s
  · exact engineDecrypt_frame s
  · exact engineClear_frame s

/-- What a step does, by its next event: a host request that decodes, one with SIZE = 3, the engine's turn with and
without a latched command, and reset. -/
theorem step_cases (s : State) :
    (∃ req rest i, s.events = .host req :: rest ∧ decode (.request req) = .instr i
        ∧ step s = .next (Instr.effect i { s with events := rest }))
      ∨ (∃ req rest, s.events = .host req :: rest ∧ (∀ i, decode (.request req) ≠ .instr i)
        ∧ step s = .next (State.respond { s with events := rest } .busError))
      ∨ ((s.events = [] ∨ ∃ rest, s.events = .engine :: rest) ∧ ∃ op, s.pending = some op
        ∧ step s = .next (Instr.effect op.instr { s with events := s.events.tail, resp := none }))
      ∨ ((s.events = [] ∨ ∃ rest, s.events = .engine :: rest) ∧ s.pending = none
        ∧ step s = .next { s with events := s.events.tail, resp := none })
      ∨ (∃ rest, s.events = .rst :: rest ∧ step s = .next (State.resetWith s.params rest)) := by
  have engineTurn : ∀ evs : List Event, fetch s = engineFetch { s with events := evs } →
      (∃ op, s.pending = some op ∧ step s = .next (Instr.effect op.instr { s with events := evs, resp := none }))
        ∨ (s.pending = none ∧ step s = .next { s with events := evs, resp := none }) := by
    intro evs h
    cases hp : s.pending with
    | none => exact .inr ⟨rfl, by simp only [step, h, engineFetch, hp, Option.map_none]⟩
    | some op =>
      exact .inl ⟨op, rfl, by simp only [step, h, engineFetch, hp, Option.map_some, exec_eq_next]⟩
  cases he : s.events with
  | nil =>
    have h : fetch s = engineFetch { s with events := [] } := by
      simp only [fetch, he]; rw [← he]
    rcases engineTurn [] h with ⟨op, hp, hs⟩ | ⟨hp, hs⟩
    · exact .inr (.inr (.inl ⟨.inl rfl, op, hp, hs⟩))
    · exact .inr (.inr (.inr (.inl ⟨.inl rfl, hp, hs⟩)))
  | cons e rest =>
    cases e with
    | host req =>
      cases hd : decode (.request req) with
      | instr i =>
        exact .inl ⟨req, rest, i, rfl, hd, by simp only [step, fetch, he, hostFetch, hd, exec_eq_next]⟩
      | illegalCommand =>
        exact .inr (.inl ⟨req, rest, rfl, by simp [hd], by simp only [step, fetch, he, hostFetch, hd]⟩)
      | reservedSize =>
        exact .inr (.inl ⟨req, rest, rfl, by simp [hd], by simp only [step, fetch, he, hostFetch, hd]⟩)
    | engine =>
      have h : fetch s = engineFetch { s with events := rest } := by simp only [fetch, he]
      rcases engineTurn rest h with ⟨op, hp, hs⟩ | ⟨hp, hs⟩
      · exact .inr (.inr (.inl ⟨.inr ⟨rest, rfl⟩, op, hp, hs⟩))
      · exact .inr (.inr (.inr (.inl ⟨.inr ⟨rest, rfl⟩, hp, hs⟩)))
    | rst => exact .inr (.inr (.inr (.inr ⟨rest, rfl, by simp only [step, fetch, he]⟩)))

end Sys2Proof.Machine
end

