-- ==== Sys2Proof/Tests/Slice0.lean ====
section
/-! SUPPORT. Small tests of the model, with the results that the spec's tables and vectors give, and for each statement
that has hypotheses a witness that meets them. -/

namespace Sys2Proof.Tests

open Sys2Proof Sys2Proof.Machine

/-! ### WellFormed: the ill-formed term of each check -/

theorem test_wf_ld8 : (Instr.ld8 65536 0).wellFormed = false := by decide
theorem test_wf_ld16 : (Instr.ld16 65536 0).wellFormed = false := by decide
theorem test_wf_ld32 : (Instr.ld32 65536 0).wellFormed = false := by decide
theorem test_wf_st8 : (Instr.st8 65536 0).wellFormed = false := by decide
theorem test_wf_st16 : (Instr.st16 65536 0).wellFormed = false := by decide
theorem test_wf_st32 : (Instr.st32 65536 0).wellFormed = false := by decide

/-! ### Decoding: words written out from rules R90, R95 and R99, bit 0 last -/

/-- Bits 31:4 are 0 and OP is 0 (rule R90). -/
theorem test_decode_nop : decode (.command 0b00000000000000000000000000000000#32) = .instr .nop := by decide
/-- OP is 1 (rule R90). -/
theorem test_decode_encrypt : decode (.command 0b00000000000000000000000000000001#32) = .instr .encrypt := by decide
/-- OP is 2 (rule R90). -/
theorem test_decode_decrypt : decode (.command 0b00000000000000000000000000000010#32) = .instr .decrypt := by decide
/-- OP is 3 (rule R90). -/
theorem test_decode_clear : decode (.command 0b00000000000000000000000000000011#32) = .instr .clear := by decide
/-- A bit above OP makes the word illegal (rule R96). -/
theorem test_decode_illegal : decode (.command 0b10000000000000000000000000000001#32) = .illegalCommand := by decide
/-- WE 0, SIZE 00, OFF 0x3004 (vector P4). -/
theorem test_decode_ld8 : decode (.request
    0b0_00_0011000000000100_00000000000000000000000000000000#51) = .instr (.ld8 0x3004 0) := by decide
/-- WE 0, SIZE 01, OFF 0x002E (rule R95). -/
theorem test_decode_ld16 : decode (.request
    0b0_01_0000000000101110_00000000000000000000000000000000#51) = .instr (.ld16 0x002E 0) := by decide
/-- WE 0, SIZE 10, OFF 0x0004 (rule R99, WAIT). -/
theorem test_decode_ld32 : decode (.request
    0b0_10_0000000000000100_00000000000000000000000000000000#51) = .instr (.ld32 0x0004 0) := by decide
/-- WE 1, SIZE 00, OFF 0x004F, WDATA 0x23 (vector P3). -/
theorem test_decode_st8 : decode (.request
    0b1_00_0000000001001111_00000000000000000000000000100011#51) = .instr (.st8 0x004F 0x23) := by decide
/-- WE 1, SIZE 01, OFF 0x1000, WDATA 0x4441 (vector P4). -/
theorem test_decode_st16 : decode (.request
    0b1_01_0001000000000000_00000000000000000100010001000001#51) = .instr (.st16 0x1000 0x4441) := by decide
/-- WE 1, SIZE 10, OFF 0x0004, WDATA 2 (rule R99, ACK). -/
theorem test_decode_st32 : decode (.request
    0b1_10_0000000000000100_00000000000000000000000000000010#51) = .instr (.st32 0x0004 2) := by decide
/-- SIZE 11 is reserved (rule R97). -/
theorem test_decode_reserved_size : decode (.request
    0b1_11_0000000000000100_00000000000000000000000000000010#51) = .reservedSize := by decide
/-- The table's words, as its rows number their bits. -/
theorem test_decodeTableWord : decodeTableWord 32 0x00000003 = some .clear
    ∧ decodeTableWord 56 0x4000000000000 = some (.st8 0 0) ∧ decodeTableWord 32 0x00000004 = none := by decide

/-! ### Taps, diffusion, clocks, bytes: vectors V1 to V4 and V6 -/

/-- The state whose cells of the list are 1 (the notation of spec/95_test_vectors.md). -/
def cells (l : List Nat) : Nfsr := l.foldl (fun t i => t ||| BitVec.twoPow 293 i) 0

/-- Vector V1. -/
theorem test_taps :
    [(false, false, false), (false, false, true), (false, true, false), (false, true, true),
     (true, false, false), (true, false, true), (true, true, false), (true, true, true)].map
      (fun v => (maj v.1 v.2.1 v.2.2, ch v.1 v.2.1 v.2.2)) =
    [(false, false), (false, true), (false, false), (true, true),
     (false, false), (true, false), (true, true), (true, true)] := by decide

/-- Vector V2, the columns (0,0) and (1,1) of some rows. -/
theorem test_fbk :
    [[], [0], [107], [196], [12], [154], [235], [235, 61], [244, 23], [66], [111], [230, 111]].map
      (fun l => (fbk (cells l) false false, fbk (cells l) true true)) =
    [((true, false), (true, false)), ((false, false), (false, false)), ((false, false), (false, false)),
     ((true, false), (false, false)), ((true, true), (false, true)), ((true, true), (false, true)),
     ((true, false), (true, false)), ((true, true), (false, true)), ((false, false), (false, false)),
     ((false, false), (false, false)), ((true, false), (true, false)), ((false, false), (false, false))] := by
  decide +kernel

/-- Vector V3. The row `[0, 61]` separates the listed order from the reverse order. -/
theorem test_diffuse :
    [[235], [230], [196], [193], [160], [154], [111], [107], [66], [61], [23], [0], [0, 61], [292], [1], []].map
      (fun l => diffuse (cells l)) =
    [[235, 289], [230, 289], [196, 230], [193, 230], [160, 193], [154, 193], [111, 154], [107, 154], [66, 107],
     [61, 107], [23, 61], [0, 61], [0, 107], [292], [1], []].map cells := by
  decide +kernel

/-- Vector V4, some rows. -/
theorem test_clock :
    clock 0 .enc false true true = (cells [292], false, false)
    ∧ clock 0 .dec true true true = (0, true, false)
    ∧ clock (cells [12]) .enc false true true = (cells [11], true, true)
    ∧ clock (cells [235]) .enc false false false = (cells [234, 288, 292], false, false)
    ∧ clock (cells [0]) .enc false false false = (cells [60], false, false)
    ∧ clock (BitVec.allOnes 293) .dec true true true = (BitVec.allOnes 293, false, true) := by
  decide +kernel

/-- Vector V6. Its last row is not among these: it contradicts rules R124 and R128 and its own neighbour by rule R153
(log entry 18). -/
theorem test_bytes :
    encryptByte ⟨0, 0⟩ 0x01 0xff 0xff = (⟨cells [286, 287, 288, 289, 290, 291, 292], 8⟩, 0x01, 0x00)
    ∧ encryptByte ⟨0, 0⟩ 0xa5 0xff 0x00 = (⟨cells [286, 288, 289, 291], 8⟩, 0xa5, 0x00)
    ∧ decryptByte ⟨0, 0⟩ 0xa5 0xff 0x00 = (⟨cells [286, 288, 289, 291], 8⟩, 0xa5)
    ∧ encryptByte ⟨0, 0⟩ 0x00 0xff 0xff = (⟨cells [285, 286, 287, 288, 289, 290, 291, 292], 8⟩, 0x00, 0x00)
    ∧ decryptByte ⟨BitVec.allOnes 293, 0⟩ 0x00 0xff 0xff = (⟨BitVec.allOnes 293 >>> 8, 8⟩, 0xff) := by
  decide +kernel

/-! ### Single steps -/

/-- The state after a step that goes on. -/
def after (s : State) : State :=
  match step s with
  | .next t => t
  | .fault _ => s
  | .refused _ => s

/-- The state with one host request to come. -/
def asked (s : State) (req : Request) : State := { s with events := [.host req] }

/-- The state with a command latched. -/
def latched (s : State) (op : Command) : State := { s with pending := some op }

/-- KEY = 00..0f, IV = 10..1f, AAD "AD" and the five bytes in MSG_IN (vector V8 row E3). -/
def hello (msg : List Byte) : State :=
  { State.reset with
    key := Bytes16.ofList [0x00, 0x01, 0x02, 0x03, 0x04, 0x05, 0x06, 0x07, 0x08, 0x09, 0x0a, 0x0b, 0x0c, 0x0d, 0x0e, 0x0f]
    iv := Bytes16.ofList [0x10, 0x11, 0x12, 0x13, 0x14, 0x15, 0x16, 0x17, 0x18, 0x19, 0x1a, 0x1b, 0x1c, 0x1d, 0x1e, 0x1f]
    aadLen := 2
    msgLen := 5
    mem := Memory.writeList (Memory.writeList [] 0x1000 [0x41, 0x44]) 0x2000 msg }

/-- "Hello". -/
def helloText : List Byte := [0x48, 0x65, 0x6c, 0x6c, 0x6f]
/-- The ciphertext of E3. -/
def helloCipher : List Byte := [0x6f, 0x39, 0x94, 0x78, 0xc9]
/-- The tag of E3. -/
def helloTag : Bytes16 := Bytes16.ofList
  [0xf3, 0x10, 0x57, 0x79, 0x1d, 0x81, 0xf1, 0xd6, 0xfb, 0xcc, 0x9a, 0x98, 0xc2, 0x44, 0x2e, 0xd2]

/-- The DECRYPT of E3, with the given tag. -/
def helloBack (tag : Bytes16) : State := { hello helloCipher with tagLen := 16, tagIn := tag }

/-- Vector V8 row E3: ciphertext, tag and clock count. -/
theorem test_encrypt_hello_run : (hello helloText).runEncrypt = ⟨helloCipher, helloTag, 2232⟩ := by decide +kernel

/-- Vector V8 row E3, column rt. -/
theorem test_decrypt_hello_run : (hello helloCipher).runDecrypt = ⟨helloText, helloTag, 2232⟩ := by decide +kernel

/-- Vectors V8 E3 and P4: what ENCRYPT leaves. -/
theorem test_encrypt_hello : engineEncrypt (hello helloText) = { hello helloText with
    done := true, result := .ok, clkcnt := 2232, tagOut := helloTag
    mem := (hello helloText).mem.writeList 0x3000 helloCipher } := by
  unfold engineEncrypt
  rw [test_encrypt_hello_run]
  decide +kernel

/-- Rule R206, the length just above the capacity: STATUS reads 0x42. -/
theorem test_encrypt_length_error :
    (after (latched { State.reset with msgLen := 4097 } .encrypt)).statusWord = 0x42 := by decide +kernel

/-- The run that DECRYPT makes does not depend on TAG_IN and TAG_LEN. -/
theorem helloBack_run (tag : Bytes16) : (helloBack tag).runDecrypt = ⟨helloText, helloTag, 2232⟩ := by
  rw [← test_decrypt_hello_run, State.runDecrypt_eq, State.runDecrypt_eq]
  rfl

/-- Vectors V8 E3 and P2: the message is released, TAG_OUT is not written. -/
theorem test_decrypt_hello : engineDecrypt (helloBack helloTag) = { helloBack helloTag with
    done := true, result := .ok, clkcnt := 2232, mem := (hello helloCipher).mem.writeList 0x3000 helloText } := by
  unfold engineDecrypt
  rw [helloBack_run]
  decide +kernel

/-- Vector P5: TAG_LEN = 15 gives STATUS 0x22. -/
theorem test_decrypt_tag_length : (after (latched { State.reset with tagLen := 15 } .decrypt)).statusWord = 0x22 := by
  decide +kernel

/-- Vector P5: CLEAR leaves STATUS 0x12, IV 0 and IRQ_EN as it was. -/
theorem test_clear :
    let t := after (latched { hello helloText with ie := true } .clear)
    t.statusWord = 0x12 ∧ t.iv = Bytes16.zero ∧ t.mem = [] ∧ t.ie = true ∧ t.irq = true := by decide +kernel

/-- Rule R207: writing NOP to CMD keeps a completion. -/
theorem test_nop :
    (after (asked { State.reset with done := true, result := .ok } 0x6000000000000#51)).statusWord = 0x12 := by
  decide +kernel

/-- Vector P4: KEY reads 0; MSG_OUT[4] after ENCRYPT. -/
theorem test_ld8 :
    (after (asked (hello helloText) 0x0002100000000#51)).resp = some ⟨false, 0⟩
    ∧ (after (asked { State.reset with mem := [(0x3004, 0xc9)] } 0x0300400000000#51)).resp = some ⟨false, 0xc9⟩ := by
  decide +kernel

/-- Vector P6 and rule R57: one byte of a control register is a bus error. -/
theorem test_ld8_register : (after (asked State.reset 0x0000400000000#51)).resp = some ⟨true, 0⟩ := by decide +kernel

/-- Rules R54, R58: two bytes, the lower offset in bits 7:0; an odd offset is a bus error. -/
theorem test_ld16 :
    (after (asked (hello helloText) 0x1100000000000#51)).resp = some ⟨false, 0x4441⟩
    ∧ (after (asked (hello helloText) 0x1100100000000#51)).resp = some ⟨true, 0⟩ := by decide +kernel

/-- Vector P4: LD32 of IV[0..4). -/
theorem test_ld32 : (after (asked (hello helloText) 0x2003000000000#51)).resp = some ⟨false, 0x13121110⟩ := by
  decide +kernel

/-- Vector P6 and rule R55: offset 0x001C is not mapped. -/
theorem test_ld32_unmapped : (after (asked State.reset 0x2001c00000000#51)).resp = some ⟨true, 0⟩ := by decide +kernel

/-- Vector P3: TAG_IN[15] takes the byte, TAG_IN[14] keeps its own. -/
theorem test_st8 :
    let t := after (asked (helloBack helloTag) 0x4004f00000023#51)
    t.tagIn.read 15 = 0x23 ∧ t.tagIn.read 14 = 0x2e := by decide +kernel

/-- Rule R30: TAG_OUT is read-only, and the write is answered without error. -/
theorem test_st8_read_only :
    after (asked State.reset 0x4005000000055#51) = { State.reset with resp := some ⟨false, 0⟩ } := by decide +kernel

/-- Vector P4: AAD = "AD". -/
theorem test_st16 : (after (asked State.reset 0x5100000004441#51)).mem = [(0x1000, 0x41), (0x1001, 0x44)] := by
  decide +kernel

/-- Vector P4: MSG_IN[0..4) = "Hell". -/
theorem test_st32 : (after (asked State.reset 0x620006c6c6548#51)).mem =
    [(0x2000, 0x48), (0x2001, 0x65), (0x2002, 0x6c), (0x2003, 0x6c)] := by decide +kernel

/-- Vectors P1 and P6: CMD ENCRYPT gives STATUS 1, CMD 4 gives STATUS 0x52. -/
theorem test_st32_command :
    (after (asked State.reset 0x6000000000001#51)).statusWord = 0x01
    ∧ (after (asked State.reset 0x6000000000004#51)).statusWord = 0x52 := by decide +kernel

/-- A row's word placed by the host's hook is what the next step runs. -/
theorem test_withFetchWord :
    (after (State.reset.withFetchWord 32 3)).statusWord = 0x12
    ∧ (after (State.reset.withFetchWord 56 0x4000000000000)).resp = some ⟨true, 0⟩ := by decide +kernel

/-! ### Witnesses: the hypotheses of the statements can be met -/

/-- A command latched in the reset state meets the invariant. -/
theorem latched_meets (op : Command) : (latched State.reset op).Inv where
  capacities := (by decide : State.reset.params.valid = true)
  canonical := rfl
  buffersOnly := rfl
  registerZero := rfl
  busyQuiet _ := ⟨rfl, rfl⟩
  doneHasResult h := by cases h
  outputsWithheld _ _ := ⟨rfl, fun _ _ => rfl⟩
  countZero _ := rfl
  countBound := (by decide : State.reset.clkcnt.toNat ≤ 67712)

theorem witness_DiffusionEqualsSimultaneousUpdate :
    ∀ j ∈ [0, 61, 107, 154, 193, 230, 289, 292], j < 293 := by decide

theorem witness_FeedbackReadsOnlyItsTaps :
    (292 < 293 ∧ 292 ∉ [12, 61, 154, 193, 235])
    ∧ (292 < 293 ∧ 292 ∉ [0, 12, 23, 61, 66, 107, 111, 154, 160, 193, 196, 230, 235, 244]) := by decide

theorem witness_ClockUpdatesEveryCell : (0 : Nat) < 292 ∧ (291 : Nat) < 292 := by decide

theorem witness_ByteAdapterRunsEightClocksLsbFirst : (0 : Nat) < 8 ∧ (7 : Nat) < 8 := by decide

theorem witness_ProcessMakesOneCallPerByte : 0 < helloText.length ∧ 4 < helloText.length := by decide

theorem witness_TagIsTheLastSixteenKeystreamBytes : (0 : Nat) < 16 ∧ (15 : Nat) < 16 := by decide

/-- The longest AAD and message, and the last byte of the message. -/
theorem witness_EncryptWritesCiphertextAndTag :
    let s : State := { State.reset with aadLen := 4096, msgLen := 4096 }
    s.mem.wf = true ∧ s.aadLen.toNat ≤ s.params.aadCap ∧ s.msgLen.toNat ≤ s.params.msgCap
      ∧ 4095 < s.msgLen.toNat := by decide

theorem witness_EncryptRefusesLongLengths :
    (let s : State := { State.reset with aadLen := 4097 }; s.params.aadCap < s.aadLen.toNat)
    ∧ (let s : State := { State.reset with msgLen := 4097 }; s.params.msgCap < s.msgLen.toNat) := by decide

theorem witness_DecryptGatesOnTagLength :
    let s := latched State.reset .decrypt
    s.tagLen ≠ 16 ∧ s.Inv ∧ s.pending = some .decrypt :=
  ⟨by decide, latched_meets _, rfl⟩

theorem witness_DecryptRefusesLongLengths :
    (let s : State := { State.reset with tagLen := 16, aadLen := 4097 }
     s.tagLen = 16 ∧ s.params.aadCap < s.aadLen.toNat)
    ∧ (let s : State := { State.reset with tagLen := 16, msgLen := 4097 }
       s.tagLen = 16 ∧ s.params.msgCap < s.msgLen.toNat) := by decide

theorem witness_DecryptReleasesAuthenticPlaintext :
    let s := helloBack helloTag
    s.mem.wf = true ∧ s.tagLen = 16 ∧ s.aadLen.toNat ≤ s.params.aadCap ∧ s.msgLen.toNat ≤ s.params.msgCap
      ∧ (aeadDecrypt s.key s.iv (s.mem.readList 0x1000 s.aadLen.toNat) (s.mem.readList 0x2000 s.msgLen.toNat)).tag
        = s.tagIn := by
  refine ⟨by decide, by decide, by decide, by decide, ?_⟩
  rw [← State.runDecrypt_eq, helloBack_run]
  rfl

theorem witness_DecryptWithholdsForgedPlaintext :
    let s := helloBack Bytes16.zero
    s.tagLen = 16 ∧ s.aadLen.toNat ≤ s.params.aadCap ∧ s.msgLen.toNat ≤ s.params.msgCap
      ∧ (aeadDecrypt s.key s.iv (s.mem.readList 0x1000 s.aadLen.toNat) (s.mem.readList 0x2000 s.msgLen.toNat)).tag
        ≠ s.tagIn := by
  refine ⟨by decide, by decide, by decide, ?_⟩
  rw [← State.runDecrypt_eq, helloBack_run]
  decide +kernel

theorem witness_ClearZeroesEverythingButIrqEn :
    bufferByte State.reset.params 0x1fff = true ∧ bufferByte State.reset.params 0x4000 = false := by decide

theorem witness_ClearEqualsResetButIrqEnAndStatus : (latched State.reset .clear).Inv := latched_meets _

theorem witness_EncryptThenDecryptRestoresMessage :
    let s := hello helloText
    let t := engineEncrypt s
    let u := helloBack helloTag
    s.mem.wf = true ∧ s.aadLen.toNat ≤ s.params.aadCap ∧ s.msgLen.toNat ≤ s.params.msgCap
      ∧ exec .encrypt s = .next t
      ∧ u.mem.wf = true ∧ u.params = s.params ∧ u.key = s.key ∧ u.iv = s.iv
      ∧ u.aadLen = s.aadLen ∧ u.msgLen = s.msgLen ∧ u.tagLen = 16 ∧ u.tagIn = t.tagOut
      ∧ (∀ j, j < s.aadLen.toNat → u.mem.read (0x1000 + j) = s.mem.read (0x1000 + j))
      ∧ (∀ j, j < s.msgLen.toNat → u.mem.read (0x2000 + j) = t.mem.read (0x3000 + j)) := by
  intro s t u
  refine ⟨by decide, by decide, by decide, rfl, by decide, rfl, rfl, rfl, rfl, rfl, rfl, ?_, by decide +kernel, ?_⟩
  · simp only [t, s, test_encrypt_hello]
    rfl
  · simp only [t, s, test_encrypt_hello]
    decide +kernel

/-- The first and the last access of each size in an array and in the last buffer. -/
theorem witness_ByteReadsAreLittleEndianAndZeroExtended :
    State.reset.params.valid = true
    ∧ bytesMapped State.reset.params 0x20 1 ∧ bytesMapped State.reset.params 0x3fff 1
    ∧ 0x20 % 2 = 0 ∧ bytesMapped State.reset.params 0x20 2 ∧ bytesMapped State.reset.params 0x3ffe 2
    ∧ 0x3ffe % 2 = 0 ∧ 0x20 % 4 = 0 ∧ bytesMapped State.reset.params 0x20 4
    ∧ 0x3ffc % 4 = 0 ∧ bytesMapped State.reset.params 0x3ffc 4 := by
  refine ⟨?_, ?_, ?_, ?_, ?_, ?_, ?_, ?_, ?_, ?_, ?_⟩ <;>
    first | decide | (unfold bytesMapped; decide)

/-- Beyond the last register, beyond the last buffer, misaligned, across two rows, and narrow on a register. -/
theorem witness_UnservedAccessesEndWithBusError :
    State.reset.params.valid = true
    ∧ ¬busServes State.reset.params 0x04 1 ∧ ¬busServes State.reset.params 0x4000 1
    ∧ ¬busServes State.reset.params 0x21 2 ∧ ¬busServes State.reset.params 0x18 2
    ∧ ¬busServes State.reset.params 0x1C 4 ∧ ¬busServes State.reset.params 0x5e 4 := by
  refine ⟨?_, ?_, ?_, ?_, ?_, ?_, ?_⟩ <;>
    first | decide | (unfold busServes bytesMapped; decide)

theorem witness_BusNeverRevealsKeyOrRegister :
    ∀ i ∈ [Instr.ld8 0x20 0, .st32 0 1],
      i ≠ .encrypt ∧ i ≠ .decrypt ∧ i ≠ .clear ∧ i ≠ .nop := by decide

/-- The read-only arrays included. -/
theorem witness_ByteWritesStoreTheirLanesOnly :
    State.reset.params.valid = true ∧ State.reset.mem.wf = true ∧ State.reset.pending = none
    ∧ bytesMapped State.reset.params 0x5f 1 ∧ bytesMapped State.reset.params 0x1fff 1
    ∧ 0x1000 % 2 = 0 ∧ bytesMapped State.reset.params 0x1000 2
    ∧ 0x2ffc % 4 = 0 ∧ bytesMapped State.reset.params 0x2ffc 4 := by
  refine ⟨?_, ?_, ?_, ?_, ?_, ?_, ?_, ?_, ?_⟩ <;>
    first | decide | (unfold bytesMapped; decide)

theorem witness_RegisterWritesTakeTheirFields : State.reset.pending = none := rfl

theorem witness_WritesDuringBusyAreIgnored :
    let s := latched State.reset .encrypt
    s.params.valid = true ∧ s.pending ≠ none
      ∧ busServes s.params 0x20 1 ∧ busServes s.params 0x3ffe 2 ∧ busServes s.params 0x00 4 := by
  refine ⟨?_, ?_, ?_, ?_, ?_⟩ <;>
    first | decide | (unfold busServes bytesMapped; decide)

theorem witness_CommandWriteAcceptsOrRefuses :
    State.reset.pending = none ∧ 4 ≤ (4 : Word).toNat ∧ 4 ≤ (0xffffffff : Word).toNat
    ∧ (3 : Word) = (match Command.clear with | .encrypt => 1 | .decrypt => 2 | .clear => 3) := by decide

theorem witness_BusyWindowShowsNothingComputed :
    let s := latched State.reset .encrypt
    s.Inv ∧ s.pending ≠ none ∧ (15 : Nat) < 16 ∧ 4095 < s.params.msgCap :=
  ⟨latched_meets _, by decide, by decide, by decide⟩

theorem witness_IrqFollowsDoneAndEnable :
    exec (Command.instr .clear) State.reset = .next (engineClear State.reset)
    ∧ State.reset.pending = none ∧ 4 ≤ (0x80000001 : Word).toNat ∧ (2 : Word).getLsbD 1 = true
    ∧ ((1 : Word) = 1 ∨ (1 : Word) = 2 ∨ (1 : Word) = 3) :=
  ⟨rfl, rfl, by decide, by decide, .inl rfl⟩

theorem witness_DecodeReadsBackEveryEncoding :
    (Instr.st32 65535 0xffffffff).wellFormed = true ∧ Instr.clear.wellFormed = true := by decide

theorem witness_RequestDecodingMatchesTheOpcodeTable :
    let w : Request := 0x4004f00000023#51
    0x4f = w.toNat / 2 ^ 32 % 65536 ∧ (0x23 : Word) = BitVec.ofNat 32 w.toNat := by decide

theorem witness_RstAbandonsEverything :
    ({ latched State.reset .encrypt with events := [.rst] } : State).events = .rst :: [] := rfl

theorem witness_StepRunsTheDecodedRequest :
    (asked State.reset 0x0002000000000#51).events = .host 0x0002000000000#51 :: []
    ∧ decode (.request 0x0002000000000#51) = .instr (.ld8 0x20 0) := ⟨rfl, by decide⟩

theorem witness_ReservedSizeEndsWithBusError :
    (asked State.reset (BitVec.ofBool true ++ (3 : BitVec 2) ++ (0 : BitVec 16) ++ (1 : Word))).events
      = .host (BitVec.ofBool true ++ (3 : BitVec 2) ++ (0 : BitVec 16) ++ (1 : Word)) :: [] := rfl

/-- Both turns, with and without a latched command. -/
theorem witness_EngineTurnRunsThePendingCommand :
    ({ State.reset with events := [.engine] } : State).events = .engine :: [] ∧ State.reset.events = []
    ∧ (latched State.reset .clear).pending = some .clear ∧ State.reset.pending = none := ⟨rfl, rfl, rfl, rfl⟩

/-- The smallest and the largest capacities, with a run to come. -/
theorem witness_ResetMeetsTheInvariant :
    (⟨1, 1⟩ : Config.Params).valid = true ∧ (⟨4096, 4096⟩ : Config.Params).valid = true := by decide

theorem witness_EveryStepKeepsTheInvariant :
    let s := latched State.reset .clear
    s.Inv ∧ step s = .next (after s) := ⟨latched_meets _, rfl⟩

theorem witness_OnlyACommandWriteLatches :
    let s := asked State.reset 0x6000000000003#51
    s.pending = none ∧ step s = .next (after s) ∧ (after s).pending = some .clear := ⟨rfl, rfl, rfl⟩

/-- A write within KEY, CLEAR, and reset. -/
theorem witness_KeyChangesOnlyByWriteClearOrReset :
    (let s := asked State.reset 0x4002000000055#51
     s.params.valid = true ∧ step s = .next (after s) ∧ (after s).key ≠ s.key)
    ∧ (let s := latched (hello []) .clear
       s.params.valid = true ∧ step s = .next (after s) ∧ (after s).key ≠ s.key)
    ∧ (let s : State := { hello [] with events := [.rst] }
       s.params.valid = true ∧ step s = .next (after s) ∧ (after s).key ≠ s.key) :=
  ⟨⟨by decide, rfl, by decide +kernel⟩, ⟨by decide, rfl, by decide +kernel⟩, ⟨by decide, rfl, by decide +kernel⟩⟩

/-- A command latched with nothing to come, and one with a host's write and the engine's turn to come. -/
theorem witness_LatchedCommandCompletesWithoutReset :
    ((latched State.reset .encrypt).pending = some .encrypt ∧ Event.rst ∉ (latched State.reset .encrypt).events)
    ∧ (let s := { latched State.reset .decrypt with events := [.host 0x6000000000003#51, .engine] }
       s.pending = some .decrypt ∧ Event.rst ∉ s.events) := by decide

/-- The engine's step leaves what it leaves of the same state with nothing to come and no response. -/
theorem step_hello :
    step (latched (hello helloText) .encrypt) = .next (engineEncrypt (latched (hello helloText) .encrypt)) := by
  rcases step_cases (latched (hello helloText) .encrypt) with
    ⟨_, _, _, he, _⟩ | ⟨_, _, he, _⟩ | ⟨_, op, hp, hs⟩ | ⟨_, hp, _⟩ | ⟨_, he, _⟩
  · cases he
  · cases he
  · cases hp
    exact hs
  · cases hp
  · cases he

theorem witness_TagOutIsWrittenOnlyByEncrypt :
    let s := latched (hello helloText) .encrypt
    let t := engineEncrypt s
    step s = .next t ∧ t.tagOut ≠ s.tagOut ∧ t.tagOut ≠ Bytes16.zero := by
  intro s t
  have hrun : s.runEncrypt = ⟨helloCipher, helloTag, 2232⟩ := by
    rw [← test_encrypt_hello_run, State.runEncrypt_eq, State.runEncrypt_eq]
    rfl
  have htag : t.tagOut = helloTag := by
    simp only [t]
    unfold engineEncrypt
    rw [hrun]
    rfl
  exact ⟨step_hello, by rw [htag]; decide +kernel, by rw [htag]; decide +kernel⟩

theorem witness_IrqEnableChangesOnlyByWriteOrReset :
    (let s := asked State.reset 0x6000800000001#51
     s.params.valid = true ∧ step s = .next (after s) ∧ (after s).ie ≠ s.ie)
    ∧ (let s : State := { State.reset with ie := true, events := [.rst] }
       s.params.valid = true ∧ step s = .next (after s) ∧ (after s).ie ≠ s.ie) :=
  ⟨⟨by decide, rfl, by decide⟩, ⟨by decide, rfl, by decide⟩⟩

end Sys2Proof.Tests
end

/-! SUPPORT. What a step does, field by field (spec/10_state.md), and the obligations of that file.

The bus request behind a transaction, the frame of each write, the four outcomes of a step. The rules of the whole
machine about single fields, and the invariant, are derived from them. -/

/-! ### The fields of a bus request (rule R95) -/

namespace Sys2Proof

/-- A request is the packing of its own fields. -/
theorem packRequest_fields (w : Request) :
    packRequest (Request.we w) (Request.size w) (Request.off w) (Request.wdata w) = w := by
  apply BitVec.eq_of_toNat_eq
  rw [packRequest_toNat, Request.size_toNat, Request.off_eq, Request.wdata_toNat, Request.we_eq]
  have hw := w.isLt
  by_cases h : w.toNat / 2 ^ 50 % 2 = 1
  · rw [decide_eq_true h, Bool.toNat_true]
    omega
  · rw [decide_eq_false h, Bool.toNat_false]
    omega

end Sys2Proof

namespace Sys2Proof.Machine

/-- The instruction a request decodes to is the transaction that its own fields describe (rules R60, R61, R95). -/
theorem effect_of_decode {req : Request} {i : Instr} (h : decode (.request req) = .instr i) :
    (∃ n, ∀ s, Instr.effect i s = busLoad n (Request.off req) s)
      ∨ (Request.we req = true ∧ ∀ s, Instr.effect i s =
          busStore (2 ^ (Request.size req).toNat) (Request.off req) (Request.wdata req) s) := by
  simp only [decode, decodeRequest] at h
  split at h <;> cases h
  · exact .inl ⟨1, fun _ => rfl⟩
  · exact .inl ⟨2, fun _ => rfl⟩
  · exact .inl ⟨4, fun _ => rfl⟩
  all_goals
    rename_i hwe hsize
    exact .inr ⟨hwe, fun _ => by rw [hsize]; rfl⟩

/-! ### The row that serves an access, whatever the capacities -/

/-- An access that a row serves is aligned, has all its bytes in the row, the first among them, and is 4 bytes wide on a
4-byte-only register (rules R56 to R58). -/
theorem accessRow_some {p : Config.Params} {off n : Nat} {r : Row} (h : accessRow p off n = some r) :
    off % n = 0 ∧ (r.base ≤ off ∧ off < r.base + r.size p)
      ∧ (∀ k, k < n → r.base ≤ off + k ∧ off + k < r.base + r.size p) ∧ (r.wordOnly = true → n = 4) := by
  simp only [← Row.holds_iff]
  unfold accessRow at h
  split at h
  · cases h
  · next haligned =>
    split at h
    · cases h
    · next r' hrow =>
      split at h
      · next hall =>
        split at h
        · cases h
        · next hword =>
          cases h
          exact ⟨not_not.mp haligned, rowAt_some_holds hrow,
            fun k hk => List.all_eq_true.mp hall k (List.mem_range.mpr hk), fun hw => by simpa [hw] using hword⟩
      · cases h

/-- A 4-byte-only register is served at its own offset only (rules R56 to R58). -/
theorem accessRow_register {p : Config.Params} {off n : Nat} {r : Row} (h : accessRow p off n = some r)
    (hr : r.wordOnly = true) : n = 4 ∧ off = r.base := by
  obtain ⟨haligned, ⟨hbase, htop⟩, _, hword⟩ := accessRow_some h
  obtain rfl := hword hr
  refine ⟨rfl, ?_⟩
  cases r <;> simp only [Row.wordOnly, Bool.false_eq_true] at hr <;> simp only [Row.base, Row.size] at hbase htop ⊢ <;>
    omega

/-- The 4-byte access at offset 0 is CMD's (rule R55). -/
theorem accessRow_cmd (p : Config.Params) : accessRow p 0x00 4 = some .cmd := rfl

/-- The 4-byte access at offset 4 is STATUS's (rule R55). -/
theorem accessRow_status (p : Config.Params) : accessRow p 0x04 4 = some .status := rfl

/-! ### What a served write leaves unchanged (rule R61) -/

/-- A write of an array or a buffer is its byte writes one after the other: what each of them keeps, it keeps. -/
theorem rowWrite_induction {P : State → Prop} {r : Row} (hw : r.wordOnly = false) {s : State} {off n : Nat} {v : Word}
    (hs : P s) (hstep : ∀ t k b, k < n → P t → P (State.byteWrite t r (off + k - r.base) b)) :
    P (s.rowWrite r off n v) := by
  unfold State.rowWrite
  rw [if_neg (by simp [hw])]
  exact List.foldlRecOn _ _ hs fun t ht k hk => hstep t k _ (List.mem_range.mp hk) ht

/-- What no byte write changes, a write of an array or a buffer does not change. -/
theorem rowWrite_of_byteWrite {α : Type} (f : State → α) {r : Row} (hw : r.wordOnly = false)
    (hf : ∀ s j b, f (State.byteWrite s r j b) = f s) (s : State) (off n : Nat) (v : Word) :
    f (s.rowWrite r off n v) = f s :=
  rowWrite_induction (P := fun t => f t = f s) hw rfl fun t _ _ _ ht => (hf t _ _).trans ht

/-- A write of a 4-byte-only register takes the whole word. -/
theorem rowWrite_register {r : Row} (hw : r.wordOnly = true) (s : State) (off n : Nat) (v : Word) :
    s.rowWrite r off n v = s.regWrite r v := by
  unfold State.rowWrite
  rw [if_pos hw]

/-- `CommandWrite` does nothing, refuses, or accepts the command whose word was written (rule R200). -/
theorem commandWrite_kinds (s : State) (v : Word) :
    s.commandWrite v = s ∨ s.commandWrite v = s.refuse
      ∨ ∃ op, encode (Command.instr op) = .command v ∧ s.commandWrite v = s.accept op := by
  rcases commandWrite_cases s v with ⟨_, h⟩ | ⟨rfl, h⟩ | ⟨rfl, h⟩ | ⟨rfl, h⟩ | ⟨_, h⟩
  · exact .inl h
  · exact .inr (.inr ⟨.encrypt, rfl, h⟩)
  · exact .inr (.inr ⟨.decrypt, rfl, h⟩)
  · exact .inr (.inr ⟨.clear, rfl, h⟩)
  · exact .inr (.inl h)

/-- Every word from 4 on is refused (rules R200, R202). -/
theorem commandWrite_illegal (s : State) {v : Word} (hv : 4 ≤ v.toNat) : s.commandWrite v = s.refuse := by
  rcases commandWrite_cases s v with ⟨rfl, _⟩ | ⟨rfl, _⟩ | ⟨rfl, _⟩ | ⟨rfl, _⟩ | ⟨_, h⟩
  case inr.inr.inr.inr => exact h
  all_goals exact absurd hv (by decide)

/-- What a write of a 4-byte-only register does: it sets lengths (or nothing), refuses, accepts, acknowledges, or sets
IE (rules R25, R26, R31 to R35, R200). -/
theorem regWrite_cases (s : State) (r : Row) (v : Word) :
    (∃ a m t, s.regWrite r v = { s with aadLen := a, msgLen := m, tagLen := t })
      ∨ s.regWrite r v = s.refuse
      ∨ (r = .cmd ∧ ∃ op, encode (Command.instr op) = .command v ∧ s.regWrite r v = s.accept op)
      ∨ s.regWrite r v = s.acknowledge
      ∨ (r = .irqEn ∧ s.regWrite r v = { s with ie := v.getLsbD 0 }) := by
  cases r
  case cmd =>
    rcases commandWrite_kinds s v with h | h | ⟨op, hop, h⟩
    · exact .inl ⟨s.aadLen, s.msgLen, s.tagLen, h⟩
    · exact .inr (.inl h)
    · exact .inr (.inr (.inl ⟨rfl, op, hop, h⟩))
  case status =>
    by_cases hv : v.getLsbD 1 = true
    · exact .inr (.inr (.inr (.inl (if_pos hv))))
    · exact .inl ⟨s.aadLen, s.msgLen, s.tagLen, if_neg hv⟩
  case irqEn => exact .inr (.inr (.inr (.inr ⟨rfl, rfl⟩)))
  case aadLen => exact .inl ⟨_, s.msgLen, s.tagLen, rfl⟩
  case msgLen => exact .inl ⟨s.aadLen, _, s.tagLen, rfl⟩
  case tagLen => exact .inl ⟨s.aadLen, s.msgLen, _, rfl⟩
  all_goals exact .inl ⟨s.aadLen, s.msgLen, s.tagLen, rfl⟩

@[simp] theorem State.byteWrite_pending (s : State) (r : Row) (j : Nat) (b : Byte) :
    (s.byteWrite r j b).pending = s.pending := by cases r <;> rfl
@[simp] theorem State.byteWrite_ie (s : State) (r : Row) (j : Nat) (b : Byte) :
    (s.byteWrite r j b).ie = s.ie := by cases r <;> rfl
@[simp] theorem State.byteWrite_tagOut (s : State) (r : Row) (j : Nat) (b : Byte) :
    (s.byteWrite r j b).tagOut = s.tagOut := by cases r <;> rfl
@[simp] theorem State.byteWrite_params (s : State) (r : Row) (j : Nat) (b : Byte) :
    (s.byteWrite r j b).params = s.params := by cases r <;> rfl

theorem State.byteWrite_key {r : Row} (hr : r ≠ .key) (s : State) (j : Nat) (b : Byte) :
    (s.byteWrite r j b).key = s.key := by
  cases r
  case key => exact absurd rfl hr
  all_goals rfl

/-- PENDING after a served write: as before, or the command whose word was written to CMD (rules R38, R201). -/
theorem rowWrite_pending (s : State) (r : Row) (off n : Nat) (v : Word) :
    (s.rowWrite r off n v).pending = s.pending
      ∨ (r = .cmd ∧ ∃ op, encode (Command.instr op) = .command v ∧ (s.rowWrite r off n v).pending = some op) := by
  cases hw : r.wordOnly
  · exact .inl (rowWrite_of_byteWrite State.pending hw (State.byteWrite_pending · r) s off n v)
  · rw [rowWrite_register hw]
    rcases regWrite_cases s r v with ⟨_, _, _, h⟩ | h | ⟨hr, op, hop, h⟩ | h | ⟨_, h⟩ <;> rw [h]
    case inr.inr.inl => exact .inr ⟨hr, op, hop, rfl⟩
    all_goals exact .inl rfl

/-- IE after a served write: as before, or bit 0 of the word written to IRQ_EN (rule R31). -/
theorem rowWrite_ie (s : State) (r : Row) (off n : Nat) (v : Word) :
    (s.rowWrite r off n v).ie = s.ie ∨ (r = .irqEn ∧ (s.rowWrite r off n v).ie = v.getLsbD 0) := by
  cases hw : r.wordOnly
  · exact .inl (rowWrite_of_byteWrite State.ie hw (State.byteWrite_ie · r) s off n v)
  · rw [rowWrite_register hw]
    rcases regWrite_cases s r v with ⟨_, _, _, h⟩ | h | ⟨_, _, _, h⟩ | h | ⟨hr, h⟩ <;> rw [h]
    case inr.inr.inr.inr => exact .inr ⟨hr, rfl⟩
    all_goals exact .inl rfl

/-- TAG_OUT after a served write: as before, or zero by an acceptance (rules R30, R201). -/
theorem rowWrite_tagOut (s : State) (r : Row) (off n : Nat) (v : Word) :
    (s.rowWrite r off n v).tagOut = s.tagOut ∨ (s.rowWrite r off n v).tagOut = Bytes16.zero := by
  cases hw : r.wordOnly
  · exact .inl (rowWrite_of_byteWrite State.tagOut hw (State.byteWrite_tagOut · r) s off n v)
  · rw [rowWrite_register hw]
    rcases regWrite_cases s r v with ⟨_, _, _, h⟩ | h | ⟨_, _, _, h⟩ | h | ⟨_, h⟩ <;> rw [h]
    case inr.inr.inl => exact .inr rfl
    all_goals exact .inl rfl

/-- KEY changes by no write outside it (rule R27). -/
theorem rowWrite_key {r : Row} (hr : r ≠ .key) (s : State) (off n : Nat) (v : Word) :
    (s.rowWrite r off n v).key = s.key := by
  cases hw : r.wordOnly
  · exact rowWrite_of_byteWrite State.key hw (State.byteWrite_key hr) s off n v
  · rw [rowWrite_register hw]
    rcases regWrite_cases s r v with ⟨_, _, _, h⟩ | h | ⟨_, _, _, h⟩ | h | ⟨_, h⟩ <;> rw [h] <;> rfl

/-! ### The responses of the two transactions (rules R52, R60, R61, R63) -/

/-- A served read answers its data. -/
theorem busLoad_served {s : State} {off n : Nat} {r : Row} (hrow : accessRow s.params off n = some r) :
    busLoad n off s = s.respond (.data (s.rowRead r off n)) := by
  simp [busLoad, State.memRead, hrow]

/-- An unserved read ends with BusError. -/
theorem busLoad_unserved {s : State} {off n : Nat} (hrow : accessRow s.params off n = none) :
    busLoad n off s = s.respond .busError := by
  simp [busLoad, State.memRead, hrow]

/-- An unserved write ends with BusError. -/
theorem busStore_unserved {s : State} {off n : Nat} (hrow : accessRow s.params off n = none) (v : Word) :
    busStore n off v s = s.respond .busError := by
  simp [busStore, State.memWrite, hrow]

/-- A served write while BUSY = 1 is ignored. -/
theorem busStore_ignored {s : State} {off n : Nat} {r : Row} (hrow : accessRow s.params off n = some r)
    (hb : s.busy = true) (v : Word) : busStore n off v s = s.respond .ok := by
  simp [busStore, State.memWrite, hrow, hb]

/-- A served write while BUSY = 0 is carried out. -/
theorem busStore_served {s : State} {off n : Nat} {r : Row} (hrow : accessRow s.params off n = some r)
    (hb : s.busy = false) (v : Word) : busStore n off v s = (s.rowWrite r off n v).respond .ok := by
  simp [busStore, State.memWrite, hrow, hb]

/-! ### What an engine step leaves unchanged (rules R203 to R205) -/

/-- The end of a run leaves KEY, and DECRYPT's leaves TAG_OUT. Stated of every run, so that nothing evaluates one. -/
theorem State.encryptEnd_key (s : State) (run : AeadResult) (code : ResultCode) :
    ((((s.writeMsgOut run.out).setTagOut run.tag).setClkcnt run.clocks).complete code).key = s.key := rfl

theorem State.decryptEnd_key_tagOut (s : State) (run : AeadResult) (code : ResultCode) :
    (((s.setClkcnt run.clocks).writeMsgOut run.out).complete code).key = s.key
      ∧ (((s.setClkcnt run.clocks).writeMsgOut run.out).complete code).tagOut = s.tagOut := ⟨rfl, rfl⟩

theorem State.forgedEnd_key_tagOut (s : State) (run : AeadResult) (code : ResultCode) :
    ((s.setClkcnt run.clocks).complete code).key = s.key
      ∧ ((s.setClkcnt run.clocks).complete code).tagOut = s.tagOut := ⟨rfl, rfl⟩

theorem engineEncrypt_key (s : State) : (engineEncrypt s).key = s.key := by
  rcases engineEncrypt_cases s with ⟨_, h⟩ | ⟨_, h⟩ <;> rw [h]
  · exact s.encryptEnd_key _ _
  · rfl

/-- ENCRYPT writes TAG_OUT only where it ends with OK (rule R203). -/
theorem engineEncrypt_tagOut (s : State) :
    (engineEncrypt s).result = .ok ∨ (engineEncrypt s).tagOut = s.tagOut := by
  rcases engineEncrypt_cases s with ⟨_, h⟩ | ⟨_, h⟩ <;> rw [h]
  · exact .inl rfl
  · exact .inr rfl

/-- DECRYPT leaves KEY, and TAG_OUT too: the recomputed tag reaches nothing (rule R204). -/
theorem engineDecrypt_key_tagOut (s : State) :
    (engineDecrypt s).key = s.key ∧ (engineDecrypt s).tagOut = s.tagOut := by
  rcases engineDecrypt_cases s with ⟨_, h⟩ | ⟨_, _, h⟩ | ⟨_, _, _, h⟩ | ⟨_, _, _, h⟩ <;> rw [h]
  · exact ⟨rfl, rfl⟩
  · exact ⟨rfl, rfl⟩
  · exact s.decryptEnd_key_tagOut _ _
  · exact s.forgedEnd_key_tagOut _ _

/-! ### The outcomes of a step (rules R38, R66, R260) -/

/-- The next event is the engine's turn, or none is left (log entries 1 and 2). -/
def State.EngineTurn (s : State) : Prop := s.events = [] ∨ ∃ rest, s.events = .engine :: rest

/-- What one step can do to the state. -/
inductive StepOutcome (s : State) : State → Prop where
  /-- A read, a refused or ignored transaction, or an engine's turn with nothing latched: only the model's own fields
  change. -/
  | interface (r : Option BusResponse) : StepOutcome s { s with events := s.events.tail, resp := r }
  /-- A served write while BUSY = 0 (rule R61). -/
  | write (req : Request) (rest : List Event) (r : Row) (he : s.events = .host req :: rest) (hp : s.pending = none)
      (hwe : Request.we req = true)
      (hrow : accessRow s.params (Request.off req) (2 ^ (Request.size req).toNat) = some r) :
      StepOutcome s ((State.rowWrite { s with events := rest } r (Request.off req) (2 ^ (Request.size req).toNat)
        (Request.wdata req)).respond .ok)
  /-- The engine's step of the latched command (rule R38). -/
  | command (op : Command) (ht : s.EngineTurn) (hp : s.pending = some op) :
      StepOutcome s (Instr.effect op.instr { s with events := s.events.tail, resp := none })
  /-- Reset (rule R260). -/
  | rst (rest : List Event) (he : s.events = .rst :: rest) : StepOutcome s (State.resetWith s.params rest)

/-- Every step is one of the four outcomes. -/
theorem stepOutcome {s t : State} (h : step s = .next t) : StepOutcome s t := by
  rcases step_cases s with ⟨req, rest, i, he, hd, hs⟩ | ⟨_, rest, he, _, hs⟩ | ⟨ht, op, hp, hs⟩ | ⟨_, _, hs⟩ |
    ⟨rest, he, hs⟩ <;> rw [hs] at h <;> cases h
  · obtain rfl : rest = s.events.tail := by rw [he]; rfl
    rcases effect_of_decode hd with ⟨n, heff⟩ | ⟨hwe, heff⟩ <;> rw [heff]
    · obtain ⟨r, hload⟩ := busLoad_eq_respond n (Request.off req) { s with events := s.events.tail }
      exact hload ▸ .interface (some r)
    · rcases busStore_cases (2 ^ (Request.size req).toNat) (Request.off req) (Request.wdata req)
        { s with events := s.events.tail } with ⟨_, hst⟩ | ⟨_, _, _, hst⟩ | ⟨r, hrow, hb, hst⟩ <;> rw [hst]
      · exact .interface _
      · exact .interface _
      · exact .write req _ r he ((State.busy_eq_false_iff _).1 hb) hwe hrow
  · obtain rfl : rest = s.events.tail := by rw [he]; rfl
    exact .interface _
  · exact .command op ht hp
  · exact .interface none
  · exact .rst rest he

/-- The request of a served 4-byte-only register write, written out as its fields (rule R95). -/
theorem request_of_register_write {p : Config.Params} {req : Request} {r : Row} (hwe : Request.we req = true)
    (hrow : accessRow p (Request.off req) (2 ^ (Request.size req).toNat) = some r) (hr : r.wordOnly = true) :
    req = packRequest true 2 r.base (Request.wdata req) := by
  obtain ⟨hn, hoff⟩ := accessRow_register hrow hr
  have hsize : Request.size req = 2 := by
    generalize Request.size req = z at hn
    decide +revert
  rw [← packRequest_fields req, hwe, hsize, hoff, packRequest_wdata]

/-! ### The rules of the whole machine about single fields -/

/-- Settles O51: only a served write can change PENDING to a command, and only the write of a command word to CMD. -/
theorem onlyACommandWriteLatches : Obligations.OnlyACommandWriteLatches := by
  intro s t op hp hs ht
  cases stepOutcome hs with
  | interface => cases hp.symm.trans ht
  | command op' _ hp' => cases hp.symm.trans hp'
  | rst => cases ht
  | write req rest r he _ hwe hrow =>
    rcases rowWrite_pending { s with events := rest } r (Request.off req) (2 ^ (Request.size req).toNat)
      (Request.wdata req) with hsame | ⟨rfl, op', hword, hop⟩
    · cases (hsame.trans hp).symm.trans ht
    · cases hop.symm.trans ht
      refine ⟨rest, ?_⟩
      rw [he, request_of_register_write hwe hrow rfl]
      cases op <;> rw [← CodeWord.command.inj hword] <;> rfl

/-- Settles O52: a write changes KEY only where KEY's row serves it, and of the commands only CLEAR does. -/
theorem keyChangesOnlyByWriteClearOrReset : Obligations.KeyChangesOnlyByWriteClearOrReset := by
  intro s t _ hs hne
  cases stepOutcome hs with
  | interface => exact absurd rfl hne
  | rst rest he => exact .inr (.inr ⟨rest, he, rfl⟩)
  | command op ht hp =>
    cases op
    · exact absurd (engineEncrypt_key _) hne
    · exact absurd (engineDecrypt_key_tagOut _).1 hne
    · exact .inr (.inl ⟨hp, ht, rfl, rfl, rfl⟩)
  | write req rest r he hp hwe hrow =>
    have hr : r = .key := by
      by_contra hr
      exact hne (rowWrite_key hr _ _ _ _)
    subst hr
    obtain ⟨_, ⟨hbase, htop⟩, _, _⟩ := accessRow_some hrow
    rw [Request.off_eq] at hbase htop
    exact .inl ⟨hp, req, rest, he, hwe, hbase, htop⟩

/-- Settles O53: writes leave TAG_OUT or zero it, and of the commands only an ENCRYPT that ends with OK writes a tag. -/
theorem tagOutIsWrittenOnlyByEncrypt : Obligations.TagOutIsWrittenOnlyByEncrypt := by
  intro s t hs hne hnz
  cases stepOutcome hs with
  | interface => exact absurd rfl hne
  | rst => exact absurd rfl hnz
  | write req rest r => exact ((rowWrite_tagOut _ r _ _ _).elim hne hnz).elim
  | command op ht hp =>
    cases op
    · exact ⟨hp, (engineEncrypt_frame _).pending, (engineEncrypt_tagOut _).resolve_right hne, ht⟩
    · exact absurd (engineDecrypt_key_tagOut _).2 hne
    · exact absurd rfl hnz

/-- Settles O54: no engine step changes IE, and the only write that does is that of IRQ_EN. -/
theorem irqEnableChangesOnlyByWriteOrReset : Obligations.IrqEnableChangesOnlyByWriteOrReset := by
  intro s t _ hs hne
  cases stepOutcome hs with
  | interface => exact absurd rfl hne
  | rst rest he => exact .inr ⟨rest, he, rfl⟩
  | command op => exact absurd (effect_of_command op _).setting.1 hne
  | write req rest r he hp hwe hrow =>
    obtain ⟨rfl, hie⟩ := (rowWrite_ie _ r _ _ _).resolve_left hne
    refine .inl ⟨hp, Request.wdata req, rest, ?_, hie⟩
    rw [he, request_of_register_write hwe hrow rfl, packRequest_wdata]
    rfl

/-! ### The engine's turn (rule R38) -/

/-- The engine's turn runs the latched command. -/
theorem step_engineTurn {s : State} {op : Command} (ht : s.EngineTurn) (hp : s.pending = some op) :
    step s = exec op.instr { s with events := s.events.tail, resp := none } := by
  rcases ht with he | ⟨rest, he⟩ <;> simp [step, fetch, he, engineFetch, hp]

/-- The engine's turn with nothing latched changes only the model's own fields. -/
theorem step_engineTurn_idle {s : State} (ht : s.EngineTurn) (hp : s.pending = none) :
    step s = .next { s with events := s.events.tail, resp := none } := by
  rcases ht with he | ⟨rest, he⟩ <;> simp [step, fetch, he, engineFetch, hp]

/-- Settles O46: both forms of the engine's turn leave the tail of the events. -/
theorem engineTurnRunsThePendingCommand : Obligations.EngineTurnRunsThePendingCommand := by
  intro s rest h
  obtain ⟨ht, rfl⟩ : s.EngineTurn ∧ s.events.tail = rest := by
    rcases h with he | ⟨he, rfl⟩
    · exact ⟨.inr ⟨rest, he⟩, by rw [he]; rfl⟩
    · exact ⟨.inl he, by rw [he]; rfl⟩
  refine ⟨fun op hp => ?_, step_engineTurn_idle ht⟩
  rw [step_engineTurn ht hp]
  cases op <;> rfl

/-- Every state steps: no outcome stops the machine (rule R230). -/
theorem exists_step (s : State) : ∃ t, step s = .next t := by
  rcases step_cases s with ⟨_, _, _, _, _, h⟩ | ⟨_, _, _, _, h⟩ | ⟨_, _, _, h⟩ | ⟨_, _, h⟩ | ⟨_, _, h⟩ <;> exact ⟨_, h⟩

/-- While BUSY = 1 a host event changes only the model's own fields (rule R63). -/
theorem step_host_of_busy {s : State} {op : Command} {req : Request} {rest : List Event} (hp : s.pending = some op)
    (he : s.events = .host req :: rest) : ∃ r, step s = .next { s with events := rest, resp := r } := by
  obtain ⟨t, hs⟩ := exists_step s
  cases stepOutcome hs with
  | interface r => exact ⟨r, by rw [hs, he]; rfl⟩
  | write _ _ _ _ hnone => cases hp.symm.trans hnone
  | command _ ht => rcases ht with h | ⟨_, h⟩ <;> cases he.symm.trans h
  | rst _ h => cases he.symm.trans h

/-- A run of the machine goes on from the next state. -/
theorem run_succ_of_step {s t : State} (h : step s = .next t) (k : Nat) :
    Sys2Proof.core.run (k + 1) s = Sys2Proof.core.run k t := by
  have h' : Sys2Proof.core.step s = .next t := h
  simp only [Host.Core.run, h']

/-- While a command is latched and no `rst` comes, the machine reaches the engine's turn in the state it is in, but for
the model's own fields (rules R38, R63): induction over the events to come. -/
theorem run_to_engineTurn {op : Command} (l : List Event) (hrst : .rst ∉ l) {s : State} (he : s.events = l)
    (hp : s.pending = some op) : ∃ k evs r, k ≤ l.length
      ∧ Sys2Proof.core.run k s = .next { s with events := evs, resp := r }
      ∧ (evs = [] ∨ ∃ rest, evs = .engine :: rest) := by
  induction l generalizing s with
  | nil => exact ⟨0, s.events, s.resp, le_rfl, rfl, .inl he⟩
  | cons e rest ih =>
    obtain ⟨hhead, htail⟩ := not_or.mp (mt List.mem_cons.mpr hrst)
    cases e with
    | rst => exact absurd rfl hhead
    | engine => exact ⟨0, s.events, s.resp, Nat.zero_le _, rfl, .inr ⟨rest, he⟩⟩
    | host req =>
      obtain ⟨r, hs⟩ := step_host_of_busy hp he
      obtain ⟨k, evs, r', hk, hrun, hturn⟩ := ih htail (s := { s with events := rest, resp := r }) rfl hp
      refine ⟨k + 1, evs, r', Nat.succ_le_succ hk, ?_, hturn⟩
      rw [run_succ_of_step hs]
      exact hrun

/-- Settles O55: the run to the engine's turn, and the frame of the engine's step there. -/
theorem latchedCommandCompletesWithoutReset : Obligations.LatchedCommandCompletesWithoutReset := by
  intro s op hp hrst
  obtain ⟨k, evs, r, hk, hrun, hturn⟩ := run_to_engineTurn s.events hrst rfl hp
  have hexec := exec_eq_next op.instr { s with events := evs.tail, resp := none }
  have hframe := effect_of_command op { s with events := evs.tail, resp := none }
  exact ⟨k, evs, r, _, hk, hrun, hturn, 
    (step_engineTurn (s := { s with events := evs, resp := r }) hturn hp).trans hexec, hexec,
    hframe.pending, hframe.done, hframe.result⟩

/-! ### The interrupt (rule R39) -/

/-- Settles O37: an engine step sets DONE, and the three register writes set or clear it. -/
theorem irqFollowsDoneAndEnable : Obligations.IrqFollowsDoneAndEnable := by
  intro s w
  have idle : s.pending = none → s.busy = false := (State.busy_eq_false_iff s).2
  refine ⟨rfl, fun op t ht => ?_, fun hp hw => ?_, fun hp hw => ?_, fun hp hw => ?_⟩
  · rw [exec_eq_next] at ht
    cases ht
    have hframe := effect_of_command op s
    exact ⟨by rw [State.irq, hframe.done, hframe.setting.1, Bool.true_and], hframe.pending⟩
  · refine ⟨_, rfl, ?_⟩
    rw [busStore_served (accessRow_cmd _) (idle hp), rowWrite_register rfl,
      show s.regWrite .cmd w = s.refuse from commandWrite_illegal s hw]
    exact Bool.true_and _
  · refine ⟨_, rfl, ?_⟩
    rw [busStore_served (accessRow_status _) (idle hp), rowWrite_register rfl,
      show s.regWrite .status w = s.acknowledge from if_pos hw]
    exact ⟨rfl, rfl⟩
  · refine ⟨_, rfl, ?_⟩
    rw [busStore_served (accessRow_cmd _) (idle hp), rowWrite_register rfl]
    rcases hw with rfl | rfl | rfl <;> rfl

/-! ### No bus transaction reveals KEY or S (rules R27, R43) -/

/-- The state with other contents of what no bus transaction may read: KEY and S. -/
def State.withHidden (s : State) (k : Bytes16) (x : Nfsr) : State := { s with key := k, nfsr := x }

/-- A read answers the same whatever KEY and S hold: KEY reads 0 (rules R27, R60). -/
theorem State.rowRead_withHidden (s : State) (k : Bytes16) (x : Nfsr) (r : Row) (off n : Nat) :
    (s.withHidden k x).rowRead r off n = s.rowRead r off n := by
  have hreg : (s.withHidden k x).regRead r = s.regRead r := by cases r <;> rfl
  have hbyte : ∀ j, (s.withHidden k x).byteRead r j = s.byteRead r j := fun j => by cases r <;> rfl
  simp only [State.rowRead, hreg, hbyte]

theorem busLoad_withHidden (n off : Nat) (s : State) (k : Bytes16) (x : Nfsr) :
    busLoad n off (s.withHidden k x) = (busLoad n off s).withHidden k x := by
  rcases busLoad_cases n off s with ⟨r, hr, h⟩ | ⟨hr, h⟩ <;> rw [h]
  · rw [busLoad_served (s := s.withHidden k x) hr, State.rowRead_withHidden]
    rfl
  · exact busLoad_unserved (s := s.withHidden k x) hr

/-- A byte write changes the two states alike but for KEY, and never S (rules R22, R61). -/
theorem State.byteWrite_withHidden (s : State) (k : Bytes16) (x : Nfsr) (r : Row) (j : Nat) (b : Byte) :
    ∃ k', (s.withHidden k x).byteWrite r j b = (s.byteWrite r j b).withHidden k' x := by
  cases r <;> exact ⟨_, rfl⟩

theorem State.commandWrite_withHidden (s : State) (k : Bytes16) (x : Nfsr) (v : Word) :
    (s.withHidden k x).commandWrite v = (s.commandWrite v).withHidden k x := by
  unfold State.commandWrite
  split <;> rfl

theorem State.regWrite_withHidden (s : State) (k : Bytes16) (x : Nfsr) (r : Row) (v : Word) :
    (s.withHidden k x).regWrite r v = (s.regWrite r v).withHidden k x := by
  cases r
  case cmd => exact s.commandWrite_withHidden k x v
  case status => cases hv : v.getLsbD 1 <;> simp only [State.regWrite, State.writeStatus, hv] <;> rfl
  all_goals rfl

theorem State.rowWrite_withHidden (s : State) (k : Bytes16) (x : Nfsr) (r : Row) (off n : Nat) (v : Word) :
    ∃ k', (s.withHidden k x).rowWrite r off n v = (s.rowWrite r off n v).withHidden k' x := by
  unfold State.rowWrite
  cases r.wordOnly
  · simp only [Bool.false_eq_true, if_false]
    generalize List.range n = lanes
    induction lanes generalizing s k with
    | nil => exact ⟨k, rfl⟩
    | cons j lanes ih =>
      obtain ⟨k', h⟩ := s.byteWrite_withHidden k x r (off + j - r.base) (byteLane v j)
      rw [List.foldl_cons, List.foldl_cons, h]
      exact ih _ k'
  · exact ⟨k, s.regWrite_withHidden k x r v⟩

theorem busStore_withHidden (n off : Nat) (v : Word) (s : State) (k : Bytes16) (x : Nfsr) :
    ∃ k', busStore n off v (s.withHidden k x) = (busStore n off v s).withHidden k' x := by
  rcases busStore_cases n off v s with ⟨hr, h⟩ | ⟨r, hr, hb, h⟩ | ⟨r, hr, hb, h⟩ <;> rw [h]
  · exact ⟨k, busStore_unserved (s := s.withHidden k x) hr v⟩
  · exact ⟨k, busStore_ignored (s := s.withHidden k x) hr hb v⟩
  · obtain ⟨k', hrow⟩ := s.rowWrite_withHidden k x r off n v
    exact ⟨k', (busStore_served (s := s.withHidden k x) hr hb v).trans (congrArg (State.respond · .ok) hrow)⟩

/-- Settles O31: of the bus instructions, a read answers alike and a write acts alike on the two states. -/
theorem busNeverRevealsKeyOrRegister : Obligations.BusNeverRevealsKeyOrRegister := by
  intro s k x i he hd hc hn
  have halike : ∃ k', Instr.effect i (s.withHidden k x) = (Instr.effect i s).withHidden k' x := by
    cases i
    case nop => exact absurd rfl hn
    case encrypt => exact absurd rfl he
    case decrypt => exact absurd rfl hd
    case clear => exact absurd rfl hc
    case ld8 off _ => exact ⟨k, busLoad_withHidden 1 off s k x⟩
    case ld16 off _ => exact ⟨k, busLoad_withHidden 2 off s k x⟩
    case ld32 off _ => exact ⟨k, busLoad_withHidden 4 off s k x⟩
    case st8 off w => exact busStore_withHidden 1 off w s k x
    case st16 off w => exact busStore_withHidden 2 off w s k x
    case st32 off w => exact busStore_withHidden 4 off w s k x
  obtain ⟨k', h⟩ := halike
  exact ⟨Instr.effect i s, k', exec_eq_next i s, (exec_eq_next i _).trans (congrArg Host.Outcome.next h)⟩

/-! ### Reset (rules R42, R260) -/

/-- Settles O42, field by field. -/
theorem resetLeavesEveryFieldZero : Obligations.ResetLeavesEveryFieldZero :=
  ⟨rfl, rfl, rfl, rfl, rfl, rfl, rfl, rfl, rfl, rfl, rfl, Bytes16.read_zero, Bytes16.read_zero, Bytes16.read_zero,
    Bytes16.read_zero, fun _ => rfl⟩

/-- Settles O48, clause by clause: every field the invariant reads is zero. -/
theorem resetMeetsTheInvariant : Obligations.ResetMeetsTheInvariant := fun _ _ hp =>
  { capacities := hp
    canonical := rfl
    buffersOnly := rfl
    registerZero := rfl
    busyQuiet := fun _ => ⟨rfl, rfl⟩
    doneHasResult := fun h => by cases h
    outputsWithheld := fun _ _ => ⟨rfl, fun _ _ => rfl⟩
    countZero := fun _ => rfl
    countBound := Nat.zero_le _ }

/-! ### The number of clocks of a session (rules R183, R209) -/

theorem byteClock_foldl_clocks (dir : Direction) (x ca cb : Byte) (l : List Nat) (acc : Session × Byte × Byte) :
    (l.foldl (byteClock dir x ca cb) acc).1.clocks = acc.1.clocks + l.length := by
  induction l generalizing acc with
  | nil => rfl
  | cons i l ih =>
    rw [List.foldl_cons, ih, byteClock, Session.clock_clocks, List.length_cons]
    omega

@[simp] theorem encryptByte_clocks (ss : Session) (m ca cb : Byte) :
    (encryptByte ss m ca cb).1.clocks = ss.clocks + 8 := byteClock_foldl_clocks .enc m ca cb _ _

@[simp] theorem decryptByte_clocks (ss : Session) (c ca cb : Byte) :
    (decryptByte ss c ca cb).1.clocks = ss.clocks + 8 := byteClock_foldl_clocks .dec c ca cb _ _

@[simp] theorem phaseInit_clocks (key iv : Bytes16) : (phaseInit key iv).clocks = 1536 := by
  rw [phaseInit, Session.fold_eq_foldl, Session.foldl_clocks _ 1 fun _ _ => Session.clock_clocks _ _ _ _ _,
    List.length_range]
  rfl

@[simp] theorem absorbAad_clocks (ss : Session) (aad : List Byte) :
    (absorbAad ss aad).clocks = ss.clocks + 8 * aad.length := by
  rw [absorbAad, Session.fold_eq_foldl, Session.foldl_clocks _ 8 fun _ _ => encryptByte_clocks _ _ _ _]

@[simp] theorem pad_clocks (cfg : Nat → Masks) (ss : Session) : (pad cfg ss).clocks = ss.clocks + 64 := by
  rw [pad, Session.fold_eq_foldl, Session.foldl_clocks _ 8 fun _ _ => encryptByte_clocks _ _ _ _, List.length_range]
  rfl

@[simp] theorem processEnc_clocks (ss : Session) (msg : List Byte) :
    (processEnc ss msg).1.clocks = ss.clocks + 8 * msg.length := by
  rw [processEnc, Session.collect_fst, Session.foldl_clocks _ 8 fun _ _ => encryptByte_clocks _ _ _ _]

@[simp] theorem processDec_clocks (ss : Session) (ct : List Byte) :
    (processDec ss ct).1.clocks = ss.clocks + 8 * ct.length := by
  rw [processDec, Session.collect_fst, Session.foldl_clocks _ 8 fun _ _ => decryptByte_clocks _ _ _ _]

@[simp] theorem finalize_clocks (ss : Session) : (finalize ss).1.clocks = ss.clocks + 512 := by
  rw [finalize, Session.collect_fst, Session.foldl_clocks _ 8 fun _ _ => encryptByte_clocks _ _ _ _, List.length_range,
    finBytes]

/-- The clocks before Process: Init, AbsorbAAD and the first pad. -/
@[simp] theorem aeadBegin_clocks (key iv : Bytes16) (aad : List Byte) :
    (aeadBegin key iv aad).clocks = 1600 + 8 * aad.length := by
  rw [aeadBegin, padAfterAad, pad_clocks, absorbAad_clocks, phaseInit_clocks]
  omega

/-- The clocks after Process: the second pad and Finalize. -/
@[simp] theorem aeadEnd_clocks (r : Session × List Byte) : (aeadEnd r).clocks = r.1.clocks + 576 := by
  rw [aeadEnd, finalize_clocks, padAfterMsg, pad_clocks]

theorem aeadEncrypt_clocks (key iv : Bytes16) (aad msg : List Byte) :
    (aeadEncrypt key iv aad msg).clocks = 2176 + 8 * (aad.length + msg.length) := by
  rw [aeadEncrypt, aeadEnd_clocks, processEnc_clocks, aeadBegin_clocks]
  omega

theorem aeadDecrypt_clocks (key iv : Bytes16) (aad ct : List Byte) :
    (aeadDecrypt key iv aad ct).clocks = 2176 + 8 * (aad.length + ct.length) := by
  rw [aeadDecrypt, aeadEnd_clocks, processDec_clocks, aeadBegin_clocks]
  omega

/-! ### The invariant under each operation -/

section Invariant

variable {s : State}

/-- The invariant does not depend on IE, the lengths or the model's own fields but the capacities. -/
theorem State.Inv.with_settings (h : s.Inv) (ie : Bool) (a m : BitVec 16) (tl : BitVec 8) (evs : List Event)
    (r : Option BusResponse) :
    State.Inv { s with ie := ie, aadLen := a, msgLen := m, tagLen := tl, events := evs, resp := r } :=
  ⟨h.capacities, h.canonical, h.buffersOnly, h.registerZero, h.busyQuiet, h.doneHasResult, h.outputsWithheld,
    h.countZero, h.countBound⟩

theorem State.Inv.respond (h : s.Inv) (r : BusResponse) : (s.respond r).Inv :=
  h.with_settings s.ie s.aadLen s.msgLen s.tagLen s.events (some r)

/-- A change of memory outside MSG_OUT, and of arrays but TAG_OUT, keeps the invariant. -/
theorem State.Inv.of_same_outputs (h : s.Inv) {t : State} (hparams : t.params = s.params) (hwf : t.mem.wf = true)
    (hbuf : t.mem.inBuffers s.params = true) (hstatus : s.SameStatus t) (htag : t.tagOut = s.tagOut)
    (hout : ∀ a, 0x3000 ≤ a → t.mem.read a = s.mem.read a) : t.Inv := by
  obtain ⟨hpending, hdone, hresult, hclk, hnfsr⟩ := hstatus
  exact {
    capacities := hparams ▸ h.capacities
    canonical := hwf
    buffersOnly := hparams ▸ hbuf
    registerZero := hnfsr.trans h.registerZero
    busyQuiet := by
      rw [State.busy_eq, hpending, hdone, hresult]
      exact h.busyQuiet
    doneHasResult := by
      rw [hdone, hresult]
      exact h.doneHasResult
    outputsWithheld := by
      rw [hresult, State.OutputsZero, htag, hparams]
      intro hok hill
      obtain ⟨hzero, hmsg⟩ := h.outputsWithheld hok hill
      exact ⟨hzero, fun j hj => (hout _ (Nat.le_add_right _ _)).trans (hmsg j hj)⟩
    countZero := by
      rw [hresult, hclk]
      exact h.countZero
    countBound := hclk ▸ h.countBound }

theorem State.Inv.acknowledge (h : s.Inv) : s.acknowledge.Inv :=
  ⟨h.capacities, h.canonical, h.buffersOnly, h.registerZero, fun hb => ⟨rfl, (h.busyQuiet hb).2⟩,
    fun hd => (nomatch hd), h.outputsWithheld, h.countZero, h.countBound⟩

/-- A refusal happens only while BUSY = 0 (rules R200, R202). -/
theorem State.Inv.refuse (h : s.Inv) (hp : s.pending = none) : s.refuse.Inv where
  capacities := h.capacities
  canonical := h.canonical
  buffersOnly := h.buffersOnly
  registerZero := h.registerZero
  busyQuiet hb := by simp [State.busy, hp] at hb
  doneHasResult _ := by simp
  outputsWithheld _ hill := absurd rfl hill
  countZero hz := by simp at hz
  countBound := h.countBound

/-- An acceptance clears every output (rule R201). -/
theorem State.Inv.accept (h : s.Inv) (op : Command) : (s.accept op).Inv where
  capacities := h.capacities
  canonical := Memory.wf_zeroRange h.canonical _ _
  buffersOnly := Memory.inBuffers_zeroRange h.buffersOnly _ _
  registerZero := h.registerZero
  busyQuiet _ := ⟨rfl, rfl⟩
  doneHasResult hd := by cases hd
  outputsWithheld _ _ := by
    refine ⟨rfl, fun j hj => ?_⟩
    rw [State.accept_mem, Memory.read_zeroRange, msgOutBase, if_pos ⟨by omega, by simpa using hj⟩]
  countZero _ := rfl
  countBound := Nat.zero_le _

theorem State.Inv.regWrite (h : s.Inv) (hp : s.pending = none) (r : Row) (v : Word) : (s.regWrite r v).Inv := by
  rcases regWrite_cases s r v with ⟨a, m, tl, hw⟩ | hw | ⟨_, op, _, hw⟩ | hw | ⟨_, hw⟩ <;> rw [hw]
  · exact h.with_settings s.ie a m tl s.events s.resp
  · exact h.refuse hp
  · exact h.accept op
  · exact h.acknowledge
  · exact h.with_settings (v.getLsbD 0) s.aadLen s.msgLen s.tagLen s.events s.resp

/-- Above the arrays a stored byte is a byte of memory. -/
theorem State.storedByte_of_ge (s : State) {a : Nat} (ha : 0x60 ≤ a) : s.storedByte a = s.mem.read a := by
  unfold State.storedByte
  rw [if_neg (by omega), if_neg (by omega), if_neg (by omega), if_neg (by omega)]

theorem State.Inv.byteWrite (h : s.Inv) {r : Row} (hw : r.wordOnly = false) {a : Nat} (h1 : r.base ≤ a)
    (h2 : a < r.base + r.size s.params) (b : Byte) : (s.byteWrite r (a - r.base) b).Inv := by
  obtain ⟨hbyte, _, hwf, hbuf, hstatus, htag, -⟩ := byteWrite_frame h.capacities h.canonical hw h1 h2 b
  refine h.of_same_outputs (State.byteWrite_params s r _ b) hwf (hbuf h.buffersOnly) hstatus htag fun x hx => ?_
  rw [← State.storedByte_of_ge _ (by omega), hbyte, ← State.storedByte_of_ge s (by omega), if_neg]
  rw [hostWritable_iff]
  omega

theorem State.Inv.rowWrite (h : s.Inv) (hp : s.pending = none) {r : Row} {off n : Nat}
    (hrow : accessRow s.params off n = some r) (v : Word) : (s.rowWrite r off n v).Inv := by
  cases hw : r.wordOnly
  · obtain ⟨_, _, hbytes, _⟩ := accessRow_some hrow
    refine (rowWrite_induction (P := fun t => t.Inv ∧ t.params = s.params) hw ⟨h, rfl⟩ ?_).1
    rintro t k b hk ⟨ht, hparams⟩
    obtain ⟨h1, h2⟩ := hbytes k hk
    exact ⟨ht.byteWrite hw h1 (hparams ▸ h2) b, (State.byteWrite_params t r _ b).trans hparams⟩
  · rw [rowWrite_register hw]
    exact h.regWrite hp r v

/-! ### The invariant under an engine step -/

/-- A completion meets the invariant where the outputs and the count fit the code (rules R209, R215, R236). -/
theorem State.Inv.complete {code : ResultCode} (hcap : s.params.valid = true) (hwf : s.mem.wf = true)
    (hbuf : s.mem.inBuffers s.params = true) (hcode : code ≠ .none) (hout : code ≠ .ok → s.OutputsZero)
    (hzero : code = .tagLengthError ∨ code = .lengthError → s.clkcnt = 0) (hbound : s.clkcnt.toNat ≤ 67712) :
    (s.complete code).Inv where
  capacities := hcap
  canonical := hwf
  buffersOnly := hbuf
  registerZero := rfl
  busyQuiet hb := by simp at hb
  doneHasResult _ := hcode
  outputsWithheld hok _ := hout hok
  countZero hz := hzero (hz.resolve_left hcode)
  countBound := hbound

/-- What an engine step writes to MSG_OUT stays within it (rule R206). -/
theorem State.Inv.inBuffers_writeMsgOut (h : s.Inv) (hl : s.lengthOk = true) {out : List Byte}
    (hlen : out.length = s.msgLen.toNat) : (s.mem.writeList msgOutBase out).inBuffers s.params = true := by
  obtain ⟨_, hmsg⟩ := (State.lengthOk_iff s).1 hl
  refine Memory.inBuffers_writeList h.buffersOnly _ _ fun j hj => ?_
  rw [bufferByte_iff, msgOutBase]
  omega

/-- With legal lengths the count of a session is at most 67712 (rules R32, R183). -/
theorem State.Inv.count_le (h : s.Inv) (hl : s.lengthOk = true) {n : Nat}
    (hn : n = 2176 + 8 * (s.aadLen.toNat + s.msgLen.toNat)) : (BitVec.ofNat 32 n).toNat ≤ 67712 := by
  obtain ⟨haad, hmsg⟩ := (State.lengthOk_iff s).1 hl
  obtain ⟨_, haadCap, _, hmsgCap⟩ := (Config.Params.valid_iff s.params).1 h.capacities
  rw [BitVec.toNat_ofNat]
  exact (Nat.mod_le _ _).trans (by omega)

theorem State.runEncrypt_clocks (s : State) :
    s.runEncrypt.clocks = 2176 + 8 * (s.aadLen.toNat + s.msgLen.toNat) := by
  rw [State.runEncrypt_eq, aeadEncrypt_clocks, Memory.length_readList, Memory.length_readList]

theorem State.runDecrypt_clocks (s : State) :
    s.runDecrypt.clocks = 2176 + 8 * (s.aadLen.toNat + s.msgLen.toNat) := by
  rw [State.runDecrypt_eq, aeadDecrypt_clocks, Memory.length_readList, Memory.length_readList]

theorem State.length_runEncrypt_out (s : State) : s.runEncrypt.out.length = s.msgLen.toNat := by
  rw [State.runEncrypt_eq, length_aeadEncrypt_out, Memory.length_readList]

theorem State.length_runDecrypt_out (s : State) : s.runDecrypt.out.length = s.msgLen.toNat := by
  rw [State.runDecrypt_eq, length_aeadDecrypt_out, Memory.length_readList]

/-- While a command is latched nothing has been put out and nothing counted (rule R64). -/
theorem State.Inv.quiet_of_pending (h : s.Inv) {op : Command} (hp : s.pending = some op) :
    s.OutputsZero ∧ s.clkcnt = 0 := by
  obtain ⟨_, hresult⟩ := h.busyQuiet (by rw [State.busy_eq, hp]; rfl)
  exact ⟨h.outputsWithheld (by simp [hresult]) (by simp [hresult]), h.countZero (.inl hresult)⟩

/-- A completion with an error code, without a run, keeps the invariant. -/
theorem State.Inv.complete_error (h : s.Inv) {op : Command} (hp : s.pending = some op) {code : ResultCode}
    (hcode : code ≠ .none) : (s.complete code).Inv := by
  obtain ⟨hout, hclk⟩ := h.quiet_of_pending hp
  exact State.Inv.complete h.capacities h.canonical h.buffersOnly hcode (fun _ => hout) (fun _ => hclk) h.countBound

/-- A completion with OK after a run with legal lengths keeps the invariant. -/
theorem State.Inv.complete_ok (h : s.Inv) (hl : s.lengthOk = true) {out : List Byte} {n : Nat}
    (hlen : out.length = s.msgLen.toNat) (hn : n = 2176 + 8 * (s.aadLen.toNat + s.msgLen.toNat)) {t : State}
    (hparams : t.params = s.params) (hmem : t.mem = s.mem.writeList msgOutBase out)
    (hclk : t.clkcnt = BitVec.ofNat 32 n) : (t.complete .ok).Inv := by
  refine State.Inv.complete ?_ ?_ ?_ (by simp) (fun hok => absurd rfl hok) (by simp) ?_
  · rw [hparams]
    exact h.capacities
  · rw [hmem]
    exact Memory.wf_writeList h.canonical _ _
  · rw [hmem, hparams]
    exact h.inBuffers_writeMsgOut hl hlen
  · rw [hclk]
    exact h.count_le hl hn

theorem State.Inv.encryptEnd (h : s.Inv) (hl : s.lengthOk = true) {run : AeadResult}
    (hlen : run.out.length = s.msgLen.toNat) (hclk : run.clocks = 2176 + 8 * (s.aadLen.toNat + s.msgLen.toNat)) :
    ((((s.writeMsgOut run.out).setTagOut run.tag).setClkcnt run.clocks).complete .ok).Inv :=
  h.complete_ok hl hlen hclk rfl rfl rfl

theorem State.Inv.decryptEnd (h : s.Inv) (hl : s.lengthOk = true) {run : AeadResult}
    (hlen : run.out.length = s.msgLen.toNat) (hclk : run.clocks = 2176 + 8 * (s.aadLen.toNat + s.msgLen.toNat)) :
    (((s.setClkcnt run.clocks).writeMsgOut run.out).complete .ok).Inv :=
  h.complete_ok hl hlen hclk rfl rfl rfl

/-- On a tag mismatch the outputs stay as they are, zero, and only the count is set (rule R215). -/
theorem State.Inv.forgedEnd (h : s.Inv) {op : Command} (hp : s.pending = some op) (hl : s.lengthOk = true)
    {run : AeadResult} (hclk : run.clocks = 2176 + 8 * (s.aadLen.toNat + s.msgLen.toNat)) :
    ((s.setClkcnt run.clocks).complete .authenticationFail).Inv :=
  State.Inv.complete h.capacities h.canonical h.buffersOnly (by simp) (fun _ => (h.quiet_of_pending hp).1)
    (by simp) (h.count_le hl hclk)

theorem State.Inv.engineEncrypt (h : s.Inv) (hp : s.pending = some .encrypt) : (engineEncrypt s).Inv := by
  rcases engineEncrypt_cases s with ⟨hl, he⟩ | ⟨_, he⟩ <;> rw [he]
  · exact h.encryptEnd hl s.length_runEncrypt_out s.runEncrypt_clocks
  · exact h.complete_error hp (by simp)

theorem State.Inv.engineDecrypt (h : s.Inv) (hp : s.pending = some .decrypt) : (engineDecrypt s).Inv := by
  rcases engineDecrypt_cases s with ⟨_, he⟩ | ⟨_, _, he⟩ | ⟨_, hl, _, he⟩ | ⟨_, hl, _, he⟩ <;> rw [he]
  · exact h.complete_error hp (by simp)
  · exact h.complete_error hp (by simp)
  · exact h.decryptEnd hl s.length_runDecrypt_out s.runDecrypt_clocks
  · exact h.forgedEnd hp hl s.runDecrypt_clocks

theorem State.Inv.engineClear (h : s.Inv) : (engineClear s).Inv :=
  State.Inv.complete h.capacities
    (Memory.wf_zeroRange (Memory.wf_zeroRange (Memory.wf_zeroRange h.canonical _ _) _ _) _ _)
    (Memory.inBuffers_zeroRange (Memory.inBuffers_zeroRange (Memory.inBuffers_zeroRange h.buffersOnly _ _) _ _) _ _)
    (by simp) (fun hok => absurd rfl hok) (by simp) (Nat.zero_le _)

theorem State.Inv.command (h : s.Inv) {op : Command} (hp : s.pending = some op) : (Instr.effect op.instr s).Inv := by
  cases op
  · exact h.engineEncrypt hp
  · exact h.engineDecrypt hp
  · exact h.engineClear

end Invariant

/-- Settles O49: each of the four outcomes of a step keeps the invariant. -/
theorem everyStepKeepsTheInvariant : Obligations.EveryStepKeepsTheInvariant := by
  intro s t h hs
  have own : ∀ evs r, State.Inv { s with events := evs, resp := r } :=
    h.with_settings s.ie s.aadLen s.msgLen s.tagLen
  cases stepOutcome hs with
  | interface r => exact own s.events.tail r
  | write req rest r he hp hwe hrow => exact ((own rest s.resp).rowWrite hp hrow _).respond _
  | command op ht hp => exact (own s.events.tail none).command hp
  | rst rest he => exact resetMeetsTheInvariant s.params rest h.capacities

end Sys2Proof.Machine

/-! SUPPORT. What a bus transaction answers and stores (spec/20_memory.md), and the obligations of that file.

Which row serves an access to a register, an array or a buffer; what the read and the write there do; what every
transaction does to the model's own fields. -/

namespace Sys2Proof.Machine

/-! ### The row that serves a register, an array or a buffer (rules R55 to R58) -/

/-- A 4-byte access at its own offset is served by the register there. -/
theorem accessRow_of_register (p : Config.Params) {r : Row} (hr : r.wordOnly = true) :
    accessRow p r.base 4 = some r := by
  cases r
  case cmd | status | irqEn | clkcnt | aadLen | msgLen | tagLen => rfl
  all_goals cases hr

/-- Bytes of an array or a buffer lie in a row that is read and written by bytes. -/
theorem exists_row_of_bytesMapped {p : Config.Params} {off n : Nat} (h : bytesMapped p off n) :
    ∃ r : Row, r.wordOnly = false ∧ r.base ≤ off ∧ off + n ≤ r.base + r.size p := by
  rcases h with h | h | h | h | h | h | h
  · exact ⟨.key, rfl, h⟩
  · exact ⟨.iv, rfl, h⟩
  · exact ⟨.tagIn, rfl, h⟩
  · exact ⟨.tagOut, rfl, h⟩
  · exact ⟨.aad, rfl, h⟩
  · exact ⟨.msgIn, rfl, h⟩
  · exact ⟨.msgOut, rfl, h⟩

/-- An aligned access to bytes of an array or a buffer is served by a row that is read and written by bytes. -/
theorem accessRow_of_bytesMapped {p : Config.Params} (hp : p.valid = true) {off n : Nat} (hn : 0 < n)
    (halign : off % n = 0) (h : bytesMapped p off n) : ∃ r, accessRow p off n = some r ∧ r.wordOnly = false := by
  obtain ⟨r, hw, hbase, htop⟩ := exists_row_of_bytesMapped h
  exact ⟨r, (accessRow_eq_some_iff hp hn r).2 ⟨halign, hbase, htop, by simp [hw]⟩, hw⟩

/-- An access that the bus does not serve has no row. -/
theorem accessRow_eq_none_of_unserved {p : Config.Params} (hp : p.valid = true) {off n : Nat}
    (hn : n = 1 ∨ n = 2 ∨ n = 4) (h : ¬busServes p off n) : accessRow p off n = none :=
  Option.eq_none_iff_forall_ne_some.2 fun r hr => h ((exists_accessRow_iff hp hn).1 ⟨r, hr⟩)

/-- Settles O30: no row serves the access, so the read and the write both end with BusError. -/
theorem unservedAccessesEndWithBusError : Obligations.UnservedAccessesEndWithBusError := by
  intro s off w hp
  have load : ∀ n, n = 1 ∨ n = 2 ∨ n = 4 → ¬busServes s.params off n → busLoad n off s = s.respond .busError :=
    fun _ hn h => busLoad_unserved (accessRow_eq_none_of_unserved hp hn h)
  have store : ∀ n, n = 1 ∨ n = 2 ∨ n = 4 → ¬busServes s.params off n → busStore n off w s = s.respond .busError :=
    fun _ hn h => busStore_unserved (accessRow_eq_none_of_unserved hp hn h) w
  simp only [exec_eq_next, Host.Outcome.next.injEq]
  exact ⟨fun h => ⟨load 1 (by decide) h, store 1 (by decide) h⟩,
    fun h => ⟨load 2 (by decide) h, store 2 (by decide) h⟩,
    fun h => ⟨load 4 (by decide) h, store 4 (by decide) h⟩⟩

/-! ### Reads (rule R60) -/

/-- The first byte of the list is the lowest lane (rule R54). -/
theorem joinLanes_cons (b : Byte) (bs : List Byte) : joinLanes (b :: bs) = (joinLanes bs).setWidth 24 ++ b := by
  rw [joinLanes]
  grind

theorem joinLanes_one (a : Byte) : joinLanes [a] = a.setWidth 32 := by
  simp [joinLanes]

theorem joinLanes_two (a b : Byte) : joinLanes [a, b] = (b ++ a).setWidth 32 := by
  rw [joinLanes_cons, joinLanes_one]
  grind

theorem joinLanes_four (a b c d : Byte) : joinLanes [a, b, c, d] = d ++ c ++ b ++ a := by
  rw [joinLanes_cons, joinLanes_cons, joinLanes_two, BitVec.setWidth_setWidth_of_le _ (by decide)]
  grind

/-- A 4-byte read of a register answers the register. -/
theorem busLoad_register (s : State) {r : Row} (hr : r.wordOnly = true) :
    busLoad 4 r.base s = s.respond (.data (s.regRead r)) := by
  rw [busLoad_served (accessRow_of_register s.params hr), State.rowRead, if_pos hr]

/-- An aligned read of an array or a buffer answers the host's view of its bytes, lane by lane. -/
theorem busLoad_bytes {s : State} (hp : s.params.valid = true) {off n : Nat} (hn : 0 < n) (halign : off % n = 0)
    (h : bytesMapped s.params off n) :
    busLoad n off s = s.respond (.data (joinLanes ((List.range n).map fun k => s.hostByte (off + k)))) := by
  obtain ⟨r, hrow, hw⟩ := accessRow_of_bytesMapped hp hn halign h
  obtain ⟨_, _, hbytes, _⟩ := accessRow_some hrow
  rw [busLoad_served hrow, State.rowRead, if_neg (by simp [hw])]
  congr 3
  refine List.map_congr_left fun k hk => ?_
  obtain ⟨hbase, htop⟩ := hbytes k (List.mem_range.1 hk)
  exact byteRead_eq_hostByte hw hbase htop

/-- A byte read of an array or a buffer answers that byte of the row, zero-extended. -/
theorem busLoad_byte {s : State} (hp : s.params.valid = true) {r : Row} (hw : r.wordOnly = false) {j : Nat}
    (hj : j < r.size s.params) : busLoad 1 (r.base + j) s = s.respond (.data ((s.byteRead r j).setWidth 32)) := by
  have hrow : accessRow s.params (r.base + j) 1 = some r :=
    (accessRow_eq_some_iff hp Nat.one_pos r).2 ⟨Nat.mod_one _, by omega, by omega, by simp [hw]⟩
  rw [busLoad_served hrow, State.rowRead, if_neg (by simp [hw]), List.range_one, List.map_singleton, joinLanes_one,
    Nat.add_zero, Nat.add_sub_cancel_left]

/-- STATUS as a number: BUSY at bit 0, DONE at bit 1, RESULT from bit 4 on (rule R26). -/
theorem State.statusWord_eq (s : State) : s.statusWord = BitVec.ofNat 32
    (16 * s.result.code.toNat + 2 * s.done.toNat + if s.pending = none then 0 else 1) := by
  have hbusy : (if s.pending = none then 0 else 1) = s.busy.toNat := by
    cases h : s.pending <;> simp [State.busy_eq, h]
  rw [State.statusWord, hbusy]
  generalize s.result.code = code, s.done = done, s.busy = busy
  decide +revert

/-- Settles O29: a read transaction is a response and nothing else. -/
theorem readsHaveNoSideEffect : Obligations.ReadsHaveNoSideEffect := by
  intro s off w
  simp only [exec_eq_next, Host.Outcome.next.injEq]
  exact ⟨busLoad_eq_respond 1 off s, busLoad_eq_respond 2 off s, busLoad_eq_respond 4 off s⟩

/-- Settles O27: each register's offset is served by its own row, which answers its field. -/
theorem registerReadsAnswerTheirFields : Obligations.RegisterReadsAnswerTheirFields := by
  intro s w
  have answers : ∀ (r : Row) (v : Word), r.wordOnly = true → s.regRead r = v →
      exec (.ld32 r.base w) s = .next { s with resp := some ⟨false, v⟩ } := by
    rintro r _ hr rfl
    exact congrArg Host.Outcome.next (busLoad_register s hr)
  exact ⟨answers .cmd _ rfl rfl, answers .status _ rfl s.statusWord_eq,
    answers .irqEn _ rfl (by cases h : s.ie <;> simp [State.regRead, h]), answers .clkcnt _ rfl rfl,
    answers .aadLen _ rfl (BitVec.ofNat_toNat ..).symm, answers .msgLen _ rfl (BitVec.ofNat_toNat ..).symm,
    answers .tagLen _ rfl (BitVec.ofNat_toNat ..).symm⟩

/-- Settles O28: the lanes of one, two and four bytes, joined. -/
theorem byteReadsAreLittleEndianAndZeroExtended : Obligations.ByteReadsAreLittleEndianAndZeroExtended := by
  intro s off w hp
  refine ⟨fun h => ?_, fun halign h => ?_, fun halign h => ?_⟩ <;> refine congrArg Host.Outcome.next ?_
  · rw [← joinLanes_one]
    exact busLoad_bytes hp (by decide) (Nat.mod_one off) h
  · rw [← joinLanes_two]
    exact busLoad_bytes hp (by decide) halign h
  · rw [← joinLanes_four]
    exact busLoad_bytes hp (by decide) halign h

/-- Settles O36: the invariant's clauses on BUSY, as the register reads and the byte reads show them. -/
theorem busyWindowShowsNothingComputed : Obligations.BusyWindowShowsNothingComputed := by
  intro s w hinv hp
  obtain ⟨op, hop⟩ := Option.ne_none_iff_exists'.1 hp
  obtain ⟨hdone, hresult⟩ := hinv.busyQuiet (by simp [State.busy_eq, hop])
  obtain ⟨⟨htag, hmsg⟩, hclk⟩ := hinv.quiet_of_pending hop
  obtain ⟨_, hstatus, _, hclkcnt, _⟩ := registerReadsAnswerTheirFields s w
  have zeroByte : ∀ (r : Row) (j : Nat), r.wordOnly = false → j < r.size s.params → s.byteRead r j = 0 →
      exec (.ld8 (r.base + j) w) s = .next { s with resp := some ⟨false, 0⟩ } := fun r j hw hj hzero =>
    congrArg Host.Outcome.next (by rw [busLoad_byte hinv.capacities hw hj, hzero]; rfl)
  refine ⟨?_, ?_, fun k hk => zeroByte .tagOut k rfl hk ?_, fun j hj => zeroByte .msgOut j rfl hj (hmsg j hj)⟩
  · rw [hstatus, hdone, hresult, hop]
    rfl
  · rw [hclkcnt, hclk]
  · rw [State.byteRead, htag, Bytes16.read_zero]

/-! ### Writes (rule R61) -/

/-- Settles O34: some row serves the write, which is ignored there. -/
theorem writesDuringBusyAreIgnored : Obligations.WritesDuringBusyAreIgnored := by
  intro s off w hp hpending
  have hbusy : s.busy = true := Option.isSome_iff_ne_none.2 hpending
  have ignored : ∀ n, n = 1 ∨ n = 2 ∨ n = 4 → busServes s.params off n → busStore n off w s = s.respond .ok := by
    intro n hn h
    obtain ⟨r, hrow⟩ := (exists_accessRow_iff hp hn).2 h
    exact busStore_ignored hrow hbusy w
  simp only [exec_eq_next, Host.Outcome.next.injEq]
  exact ⟨ignored 1 (by decide), ignored 2 (by decide), ignored 4 (by decide)⟩

/-- Settles O33: each register's offset is served by its own row, which takes its field. -/
theorem registerWritesTakeTheirFields : Obligations.RegisterWritesTakeTheirFields := by
  intro s w hp
  have takes : ∀ (r : Row) (t : State), r.wordOnly = true → s.regWrite r w = t →
      exec (.st32 r.base w) s = .next (t.respond .ok) := by
    rintro r _ hr rfl
    refine congrArg Host.Outcome.next ?_
    rw [busStore_served (accessRow_of_register s.params hr) ((State.busy_eq_false_iff s).2 hp), rowWrite_register hr]
  have hstatus : s.regWrite .status w = { s with done := if w.getLsbD 1 then false else s.done } := by
    cases h : w.getLsbD 1 <;> simp only [State.regWrite, State.writeStatus, h] <;> rfl
  exact ⟨takes .status _ rfl hstatus, takes .irqEn _ rfl rfl, takes .clkcnt _ rfl rfl, takes .aadLen _ rfl rfl,
    takes .msgLen _ rfl rfl, takes .tagLen _ rfl rfl⟩

theorem rowWrite_zero {r : Row} (hw : r.wordOnly = false) (s : State) (off : Nat) (v : Word) :
    s.rowWrite r off 0 v = s := by
  rw [State.rowWrite, if_neg (by simp [hw]), List.range_zero, List.foldl_nil]

/-- The last lane is written last. -/
theorem rowWrite_succ {r : Row} (hw : r.wordOnly = false) (s : State) (off n : Nat) (v : Word) :
    s.rowWrite r off (n + 1) v = (s.rowWrite r off n v).byteWrite r (off + n - r.base) (byteLane v n) := by
  simp only [State.rowWrite, hw, Bool.false_eq_true, if_false, List.range_succ, List.foldl_append, List.foldl_cons,
    List.foldl_nil]

theorem State.SameStatus.trans {s t u : State} (h : s.SameStatus t) (h' : t.SameStatus u) : s.SameStatus u := by
  obtain ⟨hpending, hdone, hresult, hclk, hnfsr⟩ := h
  obtain ⟨hpending', hdone', hresult', hclk', hnfsr'⟩ := h'
  exact ⟨hpending'.trans hpending, hdone'.trans hdone, hresult'.trans hresult, hclk'.trans hclk, hnfsr'.trans hnfsr⟩

/-- A write of no lane stores nothing. -/
theorem State.storeEffect_zero (s : State) (off : Nat) (v : Word) : s.StoreEffect 0 off v (s.respond .ok) :=
  ⟨fun _ => (if_neg (by omega)).symm, fun _ _ => rfl, ⟨rfl, rfl, rfl, rfl, rfl⟩, rfl, rfl, rfl, rfl, rfl, rfl, rfl⟩

/-- After the first `n` lanes, the write of lane `n` adds its byte and nothing else. -/
theorem State.StoreEffect.byteWrite {s t : State} {n off : Nat} {v : Word}
    (h : s.StoreEffect n off v (t.respond .ok)) (hp : t.params.valid = true) (hm : t.mem.wf = true) {r : Row}
    (hw : r.wordOnly = false) (hbase : r.base ≤ off + n) (htop : off + n < r.base + r.size t.params) :
    s.StoreEffect (n + 1) off v ((t.byteWrite r (off + n - r.base) (byteLane v n)).respond .ok) := by
  obtain ⟨hbyte, hlow, hstatus, hie, haad, hmsg, htag, hparams, hevents, _⟩ := h
  obtain ⟨hbyte', hlow', _, _, hstatus', _, hie', haad', hmsg', htag', hparams', hevents', _⟩ :=
    byteWrite_frame hp hm hw hbase htop (byteLane v n)
  refine ⟨fun a => (hbyte' a).trans ?_, fun a ha => (hlow' a ha).trans (hlow a ha), hstatus.trans hstatus',
    hie'.trans hie, haad'.trans haad, hmsg'.trans hmsg, htag'.trans htag, hparams'.trans hparams,
    hevents'.trans hevents, rfl⟩
  rw [show t.storedByte a = _ from hbyte a]
  by_cases ha : a = off + n
  · subst ha
    simp [byteLane]
  · have hrange : off ≤ a ∧ a < off + (n + 1) ∧ hostWritable a = true ↔
        off ≤ a ∧ a < off + n ∧ hostWritable a = true :=
      and_congr_right fun _ => and_congr_left fun _ => by omega
    rw [if_neg (fun hlane => ha hlane.1), if_congr hrange rfl rfl]

/-- A write within an array or a buffer stores its lanes and nothing else: induction over the lanes. The canonical
memory, which each byte write needs, goes along. -/
theorem rowWrite_storeEffect {s : State} (hp : s.params.valid = true) (hm : s.mem.wf = true) {r : Row}
    (hw : r.wordOnly = false) {off : Nat} (v : Word) {n : Nat}
    (hbytes : ∀ k, k < n → r.base ≤ off + k ∧ off + k < r.base + r.size s.params) :
    s.StoreEffect n off v ((s.rowWrite r off n v).respond .ok) ∧ (s.rowWrite r off n v).mem.wf = true := by
  induction n with
  | zero =>
    rw [rowWrite_zero hw]
    exact ⟨s.storeEffect_zero off v, hm⟩
  | succ n ih =>
    obtain ⟨heffect, hwf⟩ := ih fun k hk => hbytes k (by omega)
    have hparams : (s.rowWrite r off n v).params = s.params :=
      rowWrite_of_byteWrite State.params hw (State.byteWrite_params · r) s off n v
    obtain ⟨hbase, htop⟩ := hbytes n (by omega)
    rw [← hparams] at hp htop
    rw [rowWrite_succ hw]
    obtain ⟨_, _, hwf', _⟩ := byteWrite_frame hp hwf hw hbase htop (byteLane v n)
    exact ⟨heffect.byteWrite hp hwf hw hbase htop, hwf'⟩

/-- An aligned write of an array or a buffer while BUSY = 0 stores its lanes and nothing else. -/
theorem busStore_storeEffect {s : State} (hp : s.params.valid = true) (hm : s.mem.wf = true) (hb : s.busy = false)
    {off n : Nat} (hn : 0 < n) (halign : off % n = 0) (h : bytesMapped s.params off n) (v : Word) :
    s.StoreEffect n off v (busStore n off v s) := by
  obtain ⟨r, hrow, hw⟩ := accessRow_of_bytesMapped hp hn halign h
  obtain ⟨_, _, hbytes, _⟩ := accessRow_some hrow
  rw [busStore_served hrow hb]
  exact (rowWrite_storeEffect hp hm hw v hbytes).1

/-- Settles O32: the effect of the write transaction at the three widths. -/
theorem byteWritesStoreTheirLanesOnly : Obligations.ByteWritesStoreTheirLanesOnly := by
  intro s off w hp hm hpending
  have hb : s.busy = false := (State.busy_eq_false_iff s).2 hpending
  exact ⟨fun h => ⟨_, rfl, busStore_storeEffect hp hm hb (by decide) (Nat.mod_one off) h w⟩,
    fun halign h => ⟨_, rfl, busStore_storeEffect hp hm hb (by decide) halign h w⟩,
    fun halign h => ⟨_, rfl, busStore_storeEffect hp hm hb (by decide) halign h w⟩⟩

/-! ### Events and responses (rules R51, R52, R66) -/

/-- Settles O44: the host's turn fetches the instruction its request decodes to. -/
theorem stepRunsTheDecodedRequest : Obligations.StepRunsTheDecodedRequest := by
  intro s req rest i he hd
  simp only [step, fetch, he, hostFetch, hd]

@[simp] theorem State.byteWrite_events (s : State) (r : Row) (j : Nat) (b : Byte) :
    (s.byteWrite r j b).events = s.events := by cases r <;> rfl

/-- No write changes the events to come. -/
theorem rowWrite_events (s : State) (r : Row) (off n : Nat) (v : Word) :
    (s.rowWrite r off n v).events = s.events := by
  cases hw : r.wordOnly
  · exact rowWrite_of_byteWrite State.events hw (State.byteWrite_events · r) s off n v
  · rw [rowWrite_register hw]
    rcases regWrite_cases s r v with ⟨_, _, _, h⟩ | h | ⟨_, _, _, h⟩ | h | ⟨_, h⟩ <;> rw [h] <;> rfl

/-- A transaction leaves the events to come and answers (rule R52). -/
theorem effect_of_request_answers {req : Request} {i : Instr} (h : decode (.request req) = .instr i) (s : State) :
    (Instr.effect i s).events = s.events ∧ (Instr.effect i s).resp ≠ none := by
  rcases effect_of_request h with ⟨n, off, heff⟩ | ⟨n, off, v, _, heff⟩ <;> rw [heff]
  · obtain ⟨r, hload⟩ := busLoad_eq_respond n off s
    exact hload ▸ ⟨rfl, Option.some_ne_none r⟩
  · rcases busStore_cases n off v s with ⟨_, hst⟩ | ⟨_, _, _, hst⟩ | ⟨r, _, _, hst⟩ <;> rw [hst]
    · exact ⟨rfl, Option.some_ne_none _⟩
    · exact ⟨rfl, Option.some_ne_none _⟩
    · exact ⟨rowWrite_events s r off n v, Option.some_ne_none _⟩

/-- At the engine's turn the next event is no host request. -/
theorem State.EngineTurn.not_host {s : State} (ht : s.EngineTurn) : ¬∃ req rest, s.events = .host req :: rest := by
  rintro ⟨req, rest, he⟩
  simp [State.EngineTurn, he] at ht

/-- Settles O47: the outcomes of a step, each with its response; only a host request gets one. -/
theorem everyStepHasANextState : Obligations.EveryStepHasANextState := by
  intro s
  rcases step_cases s with ⟨req, rest, i, he, hd, hs⟩ | ⟨req, rest, he, _, hs⟩ | ⟨ht, op, _, hs⟩ | ⟨ht, _, hs⟩ |
    ⟨rest, he, hs⟩ <;> refine ⟨_, hs, ?_⟩
  · obtain ⟨hevents, hresp⟩ := effect_of_request_answers hd { s with events := rest }
    exact ⟨iff_of_true hresp ⟨req, rest, he⟩, by rw [hevents, he]; rfl⟩
  · exact ⟨iff_of_true (Option.some_ne_none _) ⟨req, rest, he⟩, by rw [he]; rfl⟩
  · obtain ⟨_, _, hevents, hresp⟩ := (effect_of_command op { s with events := s.events.tail, resp := none }).setting
    exact ⟨iff_of_false (not_not.2 hresp) (State.EngineTurn.not_host ht), hevents⟩
  · exact ⟨iff_of_false (not_not.2 rfl) (State.EngineTurn.not_host ht), rfl⟩
  · exact ⟨iff_of_false (not_not.2 rfl) (by simp [he]), by rw [he]; rfl⟩

end Sys2Proof.Machine

/-! SUPPORT. The decoder against the encoder (spec/30_encoding.md), and the obligations of that file.

Each format has one case lemma: the word is the encoding of the well-formed instruction it decodes to, or is rejected.
With the decoder's reading back of an encoding this gives `decode_eq_instr_iff`, from which the opcode table follows. -/

namespace Sys2Proof

/-! ### Reading an encoding back (rules R90, R95) -/

/-- The 16-bit OFF field holds every offset of the window (rule R50). -/
theorem packRequest_off_of_lt {off : Nat} (h : off < windowBytes) (we : Bool) (size : BitVec 2) (d : Word) :
    Request.off (packRequest we size off d) = off :=
  (packRequest_off we size off d).trans (Nat.mod_eq_of_lt h)

/-- Settles O38: a command word is a fixed word; the four fields of a packed request read back. -/
theorem decodeReadsBackEveryEncoding : Obligations.DecodeReadsBackEveryEncoding := by
  intro i hi
  cases i with
  | nop | encrypt | decrypt | clear => rfl
  | ld8 off d | ld16 off d | ld32 off d | st8 off d | st16 off d | st32 off d =>
    have hoff : off < windowBytes := of_decide_eq_true hi
    simp [encode, decode, decodeRequest, packRequest_off_of_lt hoff]

/-! ### Every word is an encoding or is rejected (rules R90, R95 to R97) -/

/-- A command word as the number of its two fields (rule R90). -/
theorem commandWord_toNat (v : Word) :
    v.toNat = 16 * (v.extractLsb' 4 28).toNat + (v.extractLsb' 0 4).toNat := by
  rw [BitVec.extractLsb'_toNat, BitVec.extractLsb'_toNat, Nat.shiftRight_eq_div_pow, Nat.shiftRight_zero]
  have := v.isLt
  omega

/-- A command word is the encoding of the command it decodes to, or is illegal and at least 4 (rules R90, R96). -/
theorem decodeCommand_cases (v : Word) :
    (∃ i, decodeCommand v = .instr i ∧ i.wellFormed = true ∧ encode i = .command v)
      ∨ (decodeCommand v = .illegalCommand ∧ 4 ≤ v.toNat) := by
  have hv := commandWord_toNat v
  unfold decodeCommand
  split
  next high =>
    have hne : (v.extractLsb' 4 28).toNat ≠ 0 := fun h => high (BitVec.eq_of_toNat_eq h)
    exact .inr ⟨rfl, by omega⟩
  next high =>
    have hzero : (v.extractLsb' 4 28).toNat = 0 := congrArg BitVec.toNat (not_not.1 high)
    rw [hzero, Nat.mul_zero, Nat.zero_add] at hv
    have hword : ∀ u : Word, (v.extractLsb' 0 4).toNat = u.toNat → CodeWord.command u = .command v :=
      fun u hop => congrArg CodeWord.command (BitVec.eq_of_toNat_eq (hop.symm.trans hv.symm))
    split
    next hop => exact .inl ⟨_, rfl, rfl, hword 0 hop⟩
    next hop => exact .inl ⟨_, rfl, rfl, hword 1 hop⟩
    next hop => exact .inl ⟨_, rfl, rfl, hword 2 hop⟩
    next hop => exact .inl ⟨_, rfl, rfl, hword 3 hop⟩
    next h0 h1 h2 h3 =>
      rw [imp_false] at h0 h1 h2 h3
      exact .inr ⟨rfl, by omega⟩

/-- A decoded offset lies in the window (rule R50). -/
theorem Request.off_lt (w : Request) : Request.off w < windowBytes := (w.extractLsb' 32 16).isLt

/-- Packing a request's own OFF and WDATA gives the request back exactly under its own WE and SIZE. -/
theorem packRequest_eq_iff (w : Request) (we : Bool) (size : BitVec 2) :
    packRequest we size (Request.off w) (Request.wdata w) = w ↔
      Request.we w = we ∧ (Request.size w).toNat = size.toNat := by
  constructor
  · intro h
    rw [← h, packRequest_we, packRequest_size]
    exact ⟨rfl, rfl⟩
  · rintro ⟨rfl, hsize⟩
    rw [← BitVec.eq_of_toNat_eq hsize, packRequest_fields]

/-- SIZE = 3 is rejected whatever the other fields are (rule R97). -/
theorem decodeRequest_reserved {w : Request} (h : (Request.size w).toNat = 3) :
    decodeRequest w = .reservedSize := by
  unfold decodeRequest
  rw [h]
  cases Request.we w <;> rfl

/-- A request is the encoding of the transaction it decodes to, or is rejected for SIZE = 3 (rules R95, R97). -/
theorem decodeRequest_cases (w : Request) :
    (∃ i, decodeRequest w = .instr i ∧ i.wellFormed = true ∧ encode i = .request w)
      ∨ (decodeRequest w = .reservedSize ∧ (Request.size w).toNat = 3) := by
  by_cases h3 : (Request.size w).toNat = 3
  · exact .inr ⟨decodeRequest_reserved h3, h3⟩
  · have hsize : (Request.size w).toNat = 0 ∨ (Request.size w).toNat = 1 ∨ (Request.size w).toNat = 2 := by
      have := (Request.size w).isLt
      omega
    have hwf : decide (Request.off w < windowBytes) = true := decide_eq_true (Request.off_lt w)
    have hword : ∀ (we : Bool) (size : BitVec 2), Request.we w = we → (Request.size w).toNat = size.toNat →
        CodeWord.request (packRequest we size (Request.off w) (Request.wdata w)) = .request w :=
      fun we size hwe hs => congrArg CodeWord.request ((packRequest_eq_iff w we size).2 ⟨hwe, hs⟩)
    left
    unfold decodeRequest
    cases hwe : Request.we w <;> rcases hsize with hs | hs | hs
    all_goals
      rw [hs]
      exact ⟨_, rfl, hwf, hword _ _ hwe hs⟩

/-- Settles O39: the two formats, each by its cases. -/
theorem everyWordIsOneInstructionOrRejected : Obligations.EveryWordIsOneInstructionOrRejected := by
  rintro (v | w)
  · rcases decodeCommand_cases v with hinstr | ⟨hillegal, hv⟩
    · exact .inl hinstr
    · exact .inr (.inl ⟨v, rfl, hillegal, hv⟩)
  · rcases decodeRequest_cases w with hinstr | ⟨hreserved, hsize⟩
    · exact .inl hinstr
    · exact .inr (.inr ⟨w, rfl, hreserved, (Request.size_toNat w).symm.trans hsize⟩)

/-- The decoder reads an instruction exactly from its encoding. -/
theorem decode_eq_instr_iff {c : CodeWord} {i : Instr} :
    decode c = .instr i ↔ i.wellFormed = true ∧ encode i = c := by
  constructor
  · intro hd
    rcases everyWordIsOneInstructionOrRejected c with ⟨j, hj, hwf, henc⟩ | ⟨_, _, hrej, _⟩ | ⟨_, _, hrej, _⟩
    · cases hd.symm.trans hj
      exact ⟨hwf, henc⟩
    · cases hd.symm.trans hrej
    · cases hd.symm.trans hrej
  · rintro ⟨hwf, rfl⟩
    exact decodeReadsBackEveryEncoding i hwf

/-! ### The opcode table's mask (rule R95) -/

/-- A mask of three ones above 48 zeros keeps the two top fields and clears the others. -/
theorem append_and_mask (we : BitVec 1) (size : BitVec 2) (off : BitVec 16) (d : Word) :
    (we ++ size ++ off ++ d) &&& (BitVec.allOnes 1 ++ BitVec.allOnes 2 ++ 0#16 ++ 0#32)
      = we ++ size ++ 0#16 ++ 0#32 := by
  rw [BitVec.and_append, BitVec.and_append, BitVec.and_append, BitVec.and_allOnes, BitVec.and_allOnes,
    BitVec.and_zero, BitVec.and_zero]

/-- The mask 0x7000000000000 keeps bits 50:48, the fields WE and SIZE. -/
theorem request_and_mask (w : Request) :
    w &&& 0x7000000000000#51 = packRequest (Request.we w) (Request.size w) 0 0 := by
  calc w &&& 0x7000000000000#51
    _ = packRequest (Request.we w) (Request.size w) (Request.off w) (Request.wdata w)
          &&& 0x7000000000000#51 := by rw [packRequest_fields]
    _ = packRequest (Request.we w) (Request.size w) 0 0 := append_and_mask _ _ _ _

/-- The masked bits give WE and SIZE, and with them the packing of the request's own OFF and WDATA. -/
theorem packRequest_eq_iff_masked (w : Request) (we : Bool) (size : BitVec 2) :
    packRequest we size (Request.off w) (Request.wdata w) = w ↔
      w &&& 0x7000000000000#51 = packRequest we size 0 0 := by
  rw [packRequest_eq_iff, request_and_mask]
  constructor
  · rintro ⟨rfl, hsize⟩
    rw [BitVec.eq_of_toNat_eq hsize]
  · intro h
    have hwe := congrArg Request.we h
    have hsize := congrArg (fun r => (Request.size r).toNat) h
    simp only [packRequest_we, packRequest_size] at hwe hsize
    exact ⟨hwe, hsize⟩

/-- A request decodes to the row that packs its own OFF and WDATA exactly when it matches the row's opcode bits. -/
theorem decodeRequest_eq_instr_iff_masked {w : Request} {i : Instr} {we : Bool} {size : BitVec 2}
    (hwf : i.wellFormed = true)
    (henc : encode i = .request (packRequest we size (Request.off w) (Request.wdata w))) :
    decodeRequest w = .instr i ↔ w &&& 0x7000000000000#51 = packRequest we size 0 0 := by
  rw [← packRequest_eq_iff_masked, ← CodeWord.request.injEq, ← henc]
  exact (decode_eq_instr_iff (c := .request w)).trans (and_iff_right hwf)

/-- Settles O40: the six rows, each with its WE and SIZE. -/
theorem requestDecodingMatchesTheOpcodeTable : Obligations.RequestDecodingMatchesTheOpcodeTable := by
  intro w off d hoff hd
  obtain rfl : off = Request.off w := hoff.trans (Request.off_eq w).symm
  obtain rfl : d = Request.wdata w := by
    rw [hd]
    exact BitVec.eq_of_toNat_eq (by rw [BitVec.toNat_ofNat, Request.wdata_toNat])
  have hwf : decide (Request.off w < windowBytes) = true := decide_eq_true (Request.off_lt w)
  exact ⟨decodeRequest_eq_instr_iff_masked (we := false) (size := 0) hwf rfl,
    decodeRequest_eq_instr_iff_masked (we := false) (size := 1) hwf rfl,
    decodeRequest_eq_instr_iff_masked (we := false) (size := 2) hwf rfl,
    decodeRequest_eq_instr_iff_masked (we := true) (size := 0) hwf rfl,
    decodeRequest_eq_instr_iff_masked (we := true) (size := 1) hwf rfl,
    decodeRequest_eq_instr_iff_masked (we := true) (size := 2) hwf rfl⟩

/-- Settles O41: the twelve words, each decoded. -/
theorem writtenOutWordsDecode : Obligations.WrittenOutWordsDecode := by
  unfold Obligations.WrittenOutWordsDecode
  decide

end Sys2Proof

namespace Sys2Proof.Machine

/-! ### The step of a rejected request (rule R97) -/

/-- Settles O45: the request's SIZE field is 3, so it decodes to no instruction and the port answers BusError. -/
theorem reservedSizeEndsWithBusError : Obligations.ReservedSizeEndsWithBusError := by
  intro s we off wdata rest he
  have hpack : BitVec.ofBool we ++ (3 : BitVec 2) ++ off ++ wdata = packRequest we 3 off.toNat wdata := by
    rw [packRequest, BitVec.ofNat_toNat, BitVec.setWidth_eq]
  have hd : decode (.request (packRequest we 3 off.toNat wdata)) = .reservedSize :=
    decodeRequest_reserved (packRequest_size we 3 off.toNat wdata)
  rw [hpack] at he
  simp only [step, fetch, he, hostFetch, hd]
  rfl

end Sys2Proof.Machine

/-! SUPPORT. The register core (spec/40_register_core.md), and the obligations of that file.

The diffusion is rewritten so that every update reads the original cells; the taps are the only cells the keystream and
feedback bits depend on; the clock is then read off its parts over the diffused register. -/

namespace Sys2Proof.Machine

/-! ### The linear diffusion (rules R125, R126) -/

/-- An update leaves every other cell as it was. -/
theorem getLsbD_xorCell_of_ne (t : Nfsr) {i j : Nat} (b : Bool) (hi : i < 293) (hij : i ≠ j) :
    (xorCell t i b).getLsbD j = t.getLsbD j := by
  rw [getLsbD_xorCell t i b j hi, decide_eq_false hij, Bool.and_false, Bool.xor_false]

/-- An update adds its bit to its own cell. -/
theorem getLsbD_xorCell_same (t : Nfsr) {i : Nat} (b : Bool) (hi : i < 293) :
    (xorCell t i b).getLsbD i = (t.getLsbD i ^^ b) := by
  rw [getLsbD_xorCell t i b i hi, decide_eq_true rfl, Bool.and_true]

/-- No update of the diffusion reads a cell that an earlier one wrote, so each reads the cells before the diffusion. -/
theorem diffuse_eq_of_original_cells (s : Nfsr) :
    diffuse s =
      xorCell (xorCell (xorCell (xorCell (xorCell (xorCell s
        289 (s.getLsbD 235 ^^ s.getLsbD 230))
        230 (s.getLsbD 196 ^^ s.getLsbD 193))
        193 (s.getLsbD 160 ^^ s.getLsbD 154))
        154 (s.getLsbD 111 ^^ s.getLsbD 107))
        107 (s.getLsbD 66 ^^ s.getLsbD 61))
        61 (s.getLsbD 23 ^^ s.getLsbD 0) := by
  simp (disch := omega) only [diffuse, getLsbD_xorCell_of_ne]

/-- Settles O2: the six updates read the original cells, and each cell has at most one update. -/
theorem diffusionEqualsSimultaneousUpdate : Obligations.DiffusionEqualsSimultaneousUpdate := by
  intro s j _
  rw [diffuse_eq_of_original_cells]
  split_ifs
  iterate 6
    · subst j
      simp (disch := omega) only [getLsbD_xorCell_of_ne, getLsbD_xorCell_same, Bool.xor_assoc]
  · simp (disch := omega) only [getLsbD_xorCell_of_ne]

/-! ### The taps (rules R120 to R124) -/

/-- Settles O1: the eight inputs, each evaluated. -/
theorem booleanTapsTruthTables : Obligations.BooleanTapsTruthTables := by
  unfold Obligations.BooleanTapsTruthTables
  decide

/-- The keystream bit depends on its five taps only. -/
theorem ksg_congr {s t : Nfsr} (h : ∀ k ∈ [12, 61, 154, 193, 235], s.getLsbD k = t.getLsbD k) : ksg s = ksg t := by
  simp only [List.forall_mem_cons] at h
  simp only [ksg, h]

/-- The feedback and keystream bits depend on their fourteen taps only. -/
theorem fbk_congr {s t : Nfsr} (ca cb : Bool)
    (h : ∀ k ∈ [0, 12, 23, 61, 66, 107, 111, 154, 160, 193, 196, 230, 235, 244], s.getLsbD k = t.getLsbD k) :
    fbk s ca cb = fbk t ca cb := by
  simp only [List.forall_mem_cons] at h
  simp only [fbk, feedback, ksg, h]

/-- Flipping a cell outside a list of cells leaves the cells of the list as they were. -/
theorem getLsbD_flip_of_notMem (s : Nfsr) {i : Nat} {cells : List Nat} (hi : i < 293) (hmem : i ∉ cells) :
    ∀ k ∈ cells, (s ^^^ BitVec.twoPow 293 i).getLsbD k = s.getLsbD k :=
  fun _ hk => getLsbD_xorCell_of_ne s true hi fun hik => hmem (hik ▸ hk)

/-- The controls gate their terms of the feedback bit, which are added last. -/
theorem feedback_gated (s : Nfsr) (ca cb : Bool) :
    feedback s ca cb = (feedback s false false ^^ (ca && s.getLsbD 196) ^^ (cb && ksg s)) := by
  simp only [feedback, Bool.false_and, Bool.xor_false]

/-- On the all-zero register only the complemented cell 107 is left. -/
theorem fbk_zero (ca cb : Bool) : fbk 0 ca cb = (true, false) := by
  simp [fbk, feedback, ksg, maj, ch]

/-- Settles O3: both bits are determined by their taps, and the flipped cell is none of them. -/
theorem feedbackReadsOnlyItsTaps : Obligations.FeedbackReadsOnlyItsTaps :=
  ⟨fun s _ hi hmem => ksg_congr (getLsbD_flip_of_notMem s hi hmem),
    fun s ca cb _ hi hmem => fbk_congr ca cb (getLsbD_flip_of_notMem s hi hmem),
    feedback_gated,
    fbk_zero⟩

/-! ### The clock (rules R127 to R131) -/

/-- Settles O4: the parts of the clock are read off the diffused register, and its top cell takes the injected bit. -/
theorem clockUpdatesEveryCell : Obligations.ClockUpdatesEveryCell := by
  intro s dir b ca cb T ks f p
  have hks : ksg (diffuse s) = ks := rfl
  have hf : feedback (diffuse s) ca cb = f := by
    simp only [feedback, hks, maj, ch, f, Bool.true_xor, T]
  have hp : plainBit dir ks b = p := by cases dir <;> rfl
  refine ⟨by rw [clock_ks, hks], ?_, fun j hj => ?_, ?_, fun n => rfl⟩
  · rw [clock_out, hks]
    cases dir <;> rfl
  · rw [clock_reg, getLsbD_shiftIn _ _ (by omega), if_neg (by omega)]
  · rw [clock_reg, getLsbD_shiftIn _ _ (by omega), if_pos rfl, hf, hks, hp]

/-- Decrypting the output bit of an encrypt-clock recovers the plaintext bit. -/
theorem plainBit_dec_xor (ks b : Bool) : plainBit .dec ks (ks ^^ b) = b := by
  rw [plainBit_dec, ← Bool.xor_assoc, Bool.xor_self, Bool.false_xor]

/-- Settles O5: both clocks read the taps of one diffused register, and both inject the plaintext bit. -/
theorem decryptClockMirrorsEncryptClock : Obligations.DecryptClockMirrorsEncryptClock := by
  intro s b ca cb
  refine Prod.ext ?_ (Prod.ext ?_ ?_)
  · rw [clock_reg, clock_reg, clock_out, plainBit_dec_xor, plainBit_enc]
  · rw [clock_out, clock_out, ← plainBit_dec, plainBit_dec_xor]
  · rw [clock_ks, clock_ks]

end Sys2Proof.Machine

/-! SUPPORT. The byte adapter (spec/41_byte_adapter.md), and the obligations of that file.

A call is a loop of clocks: the register before each clock and the clock itself have a name, what the loop leaves is
said by induction over its turns, and the two directions are compared clock by clock. -/

namespace Sys2Proof.Machine

/-! ### The clocks of a call (rules R150 to R152) -/

/-- The register after the first `n` clocks of a call on the input byte `x` from the register `s`. -/
def registerAfter (dir : Direction) (x ca cb : Byte) (s : Nfsr) (n : Nat) : Nfsr :=
  (List.range n).foldl (fun s i => (clock s dir (x.getLsbD i) (ca.getLsbD i) (cb.getLsbD i)).1) s

/-- Clock `i` of a call: the register it reaches, its output bit and its keystream bit. -/
def callClock (dir : Direction) (x ca cb : Byte) (s : Nfsr) (i : Nat) : Nfsr × Bool × Bool :=
  clock (registerAfter dir x ca cb s i) dir (x.getLsbD i) (ca.getLsbD i) (cb.getLsbD i)

theorem registerAfter_succ (dir : Direction) (x ca cb : Byte) (s : Nfsr) (n : Nat) :
    registerAfter dir x ca cb s (n + 1) = (callClock dir x ca cb s n).1 := by
  rw [registerAfter, List.range_succ, List.foldl_concat]
  rfl

/-- What the first `n` turns of the loop leave. -/
def byteClocks (dir : Direction) (x ca cb : Byte) (ss : Session) (n : Nat) : Session × Byte × Byte :=
  (List.range n).foldl (byteClock dir x ca cb) (ss, 0, 0)

theorem encryptByte_eq_byteClocks (ss : Session) (m ca cb : Byte) :
    encryptByte ss m ca cb = byteClocks .enc m ca cb ss 8 := rfl

theorem decryptByte_eq_byteClocks (ss : Session) (c ca cb : Byte) :
    decryptByte ss c ca cb = ((byteClocks .dec c ca cb ss 8).1, (byteClocks .dec c ca cb ss 8).2.1) := rfl

theorem byteClocks_succ (dir : Direction) (x ca cb : Byte) (ss : Session) (n : Nat) :
    byteClocks dir x ca cb ss (n + 1) = byteClock dir x ca cb (byteClocks dir x ca cb ss n) n := by
  rw [byteClocks, List.range_succ, List.foldl_concat]
  rfl

/-- The loop clocks the register once in each turn, and counts it. -/
theorem byteClocks_session (dir : Direction) (x ca cb : Byte) (ss : Session) (n : Nat) :
    (byteClocks dir x ca cb ss n).1 = ⟨registerAfter dir x ca cb ss.reg n, ss.clocks + n⟩ := by
  induction n with
  | zero => rfl
  | succ n ih =>
    rw [byteClocks_succ, byteClock, ih, registerAfter_succ]
    rfl

/-- Turn `n` of the loop is clock `n` of the call: it writes bit `n` of each output byte. -/
theorem byteClocks_succ_bytes (dir : Direction) (x ca cb : Byte) (ss : Session) (n : Nat) :
    (byteClocks dir x ca cb ss (n + 1)).2 =
      (setBit (byteClocks dir x ca cb ss n).2.1 n (callClock dir x ca cb ss.reg n).2.1,
        setBit (byteClocks dir x ca cb ss n).2.2 n (callClock dir x ca cb ss.reg n).2.2) := by
  rw [byteClocks_succ, byteClock, byteClocks_session]
  rfl

/-- After `n` turns, bit `i < n` of each output byte is still what clock `i` gave: later turns write other bits. -/
theorem byteClocks_bits (dir : Direction) (x ca cb : Byte) (ss : Session) {n i : Nat} (hn : n ≤ 8) (hi : i < n) :
    (byteClocks dir x ca cb ss n).2.1.getLsbD i = (callClock dir x ca cb ss.reg i).2.1
      ∧ (byteClocks dir x ca cb ss n).2.2.getLsbD i = (callClock dir x ca cb ss.reg i).2.2 := by
  induction n with
  | zero => omega
  | succ n ih =>
    rw [byteClocks_succ_bytes, getLsbD_setBit _ _ _ _ (by omega), getLsbD_setBit _ _ _ _ (by omega)]
    by_cases hin : n = i
    · subst hin
      rw [if_pos rfl, if_pos rfl]
      exact ⟨rfl, rfl⟩
    · rw [if_neg hin, if_neg hin]
      exact ih (by omega) (by omega)

/-- Settles O6: the loop in either direction, after its eight turns. -/
theorem byteAdapterRunsEightClocksLsbFirst : Obligations.ByteAdapterRunsEightClocksLsbFirst := by
  intro ss x ca cb enc dec
  refine ⟨byteClocks_session .enc x ca cb ss 8, byteClocks_session .dec x ca cb ss 8, fun i hi => ?_⟩
  obtain ⟨hout, hks⟩ := byteClocks_bits .enc x ca cb ss le_rfl hi
  obtain ⟨hplain, _⟩ := byteClocks_bits .dec x ca cb ss le_rfl hi
  exact ⟨hout, hks, hplain⟩

/-! ### The byte-level laws (rule R153) -/

section Mirror

variable (ss : Session) (m ca cb : Byte)

theorem encryptByte_out_bit {i : Nat} (hi : i < 8) :
    (encryptByte ss m ca cb).2.1.getLsbD i = (callClock .enc m ca cb ss.reg i).2.1 :=
  (byteClocks_bits .enc m ca cb ss le_rfl hi).1

/-- While the registers agree, a decrypt-clock on the ciphertext byte mirrors the encrypt-clock (rule R131). -/
theorem callClock_dec_encryptByte {i : Nat} (hi : i < 8)
    (hreg : registerAfter .dec (encryptByte ss m ca cb).2.1 ca cb ss.reg i = registerAfter .enc m ca cb ss.reg i) :
    callClock .dec (encryptByte ss m ca cb).2.1 ca cb ss.reg i =
      ((callClock .enc m ca cb ss.reg i).1, m.getLsbD i, (callClock .enc m ca cb ss.reg i).2.2) := by
  rw [callClock, hreg, encryptByte_out_bit ss m ca cb hi]
  exact decryptClockMirrorsEncryptClock _ _ _ _

/-- The decrypt-clocks on the ciphertext byte pass through the registers of the encrypt-clocks. -/
theorem registerAfter_dec_encryptByte {n : Nat} (hn : n ≤ 8) :
    registerAfter .dec (encryptByte ss m ca cb).2.1 ca cb ss.reg n = registerAfter .enc m ca cb ss.reg n := by
  induction n with
  | zero => rfl
  | succ n ih =>
    rw [registerAfter_succ, registerAfter_succ, callClock_dec_encryptByte ss m ca cb hn (ih (Nat.le_of_succ_le hn))]

/-- Rule R153 (a), bit by bit from rule R129. -/
theorem encryptByte_out_eq_xor :
    (encryptByte ss m ca cb).2.1 = m ^^^ (encryptByte ss m ca cb).2.2 := by
  refine BitVec.eq_of_getLsbD_eq fun i hi => ?_
  obtain ⟨hout, hks⟩ := byteClocks_bits .enc m ca cb ss le_rfl hi
  rw [BitVec.getLsbD_xor, encryptByte_eq_byteClocks, hout, hks, callClock, clock_out, clock_ks, Bool.xor_comm]

/-- Rule R153 (b), the session: both directions count eight clocks through the same registers. -/
theorem decryptByte_encryptByte_session :
    (decryptByte ss (encryptByte ss m ca cb).2.1 ca cb).1 = (encryptByte ss m ca cb).1 := by
  rw [decryptByte_eq_byteClocks, byteClocks_session, registerAfter_dec_encryptByte ss m ca cb le_rfl,
    ← byteClocks_session, ← encryptByte_eq_byteClocks]

/-- Rule R153 (b), the byte: each of the eight decrypt-clocks recovers its message bit. -/
theorem decryptByte_encryptByte_plain :
    (decryptByte ss (encryptByte ss m ca cb).2.1 ca cb).2 = m := by
  refine BitVec.eq_of_getLsbD_eq fun i hi => ?_
  obtain ⟨hplain, _⟩ := byteClocks_bits .dec (encryptByte ss m ca cb).2.1 ca cb ss le_rfl hi
  rw [decryptByte_eq_byteClocks, hplain,
    callClock_dec_encryptByte ss m ca cb hi (registerAfter_dec_encryptByte ss m ca cb hi.le)]

end Mirror

/-- Settles O7: the two laws of the ciphertext byte, and the two parts of what decryptByte answers on it. -/
theorem decryptByteInvertsEncryptByte : Obligations.DecryptByteInvertsEncryptByte := fun ss m ca cb =>
  ⟨encryptByte_out_eq_xor ss m ca cb,
    Prod.ext (decryptByte_encryptByte_session ss m ca cb) (decryptByte_encryptByte_plain ss m ca cb)⟩

end Sys2Proof.Machine

/-! SUPPORT. The AEAD orchestrator (spec/42_aead_orchestrator.md), and the obligations of that file.

A phase is a loop of byte-adapter calls: what its session and its outputs are is said once for `Session.fold` and
`Session.collect`. Init in both of its forms is one run of clocks on one sequence of bits, and the round trip is carried
from one call (rule R153) to the calls of Process. -/

namespace Sys2Proof.Machine

/-! ### Runs of encrypt-clocks with `ca = cb = 1` -/

/-- Encrypt-clocks with `ca = cb = 1`, one for each bit of the list (rule R172). -/
def onesClocks (ss : Session) (bits : List Bool) : Session :=
  bits.foldl (fun ss b => (ss.clock .enc b true true).1) ss

/-- A run of clocks counts its bits and clocks the register on each of them. -/
theorem onesClocks_eq (ss : Session) (bits : List Bool) :
    onesClocks ss bits =
      ⟨bits.foldl (fun s b => (clock s .enc b true true).1) ss.reg, ss.clocks + bits.length⟩ := by
  induction bits generalizing ss with
  | nil => rfl
  | cons b bits ih =>
    rw [onesClocks, List.foldl_cons, ← onesClocks, ih, Session.clock_clocks, Session.clock_reg, List.foldl_cons,
      List.length_cons, Nat.add_assoc, Nat.add_comm 1]

theorem onesClocks_append (ss : Session) (bits bits' : List Bool) :
    onesClocks ss (bits ++ bits') = onesClocks (onesClocks ss bits) bits' := List.foldl_append

/-- The bits of a byte in the order of the byte adapter, least significant first (rule R152). -/
def byteBits (x : Byte) : List Bool := (List.range 8).map x.getLsbD

/-- Under all-ones masks, encryptByte is the run of clocks on the bits of its input byte: bits 0 to 7 of 0xff are 1. -/
theorem encryptByte_ones_session (ss : Session) (x : Byte) :
    (encryptByte ss x 0xff 0xff).1 = onesClocks ss (byteBits x) := by
  rw [encryptByte_eq_byteClocks, byteClocks_session, onesClocks_eq, byteBits, List.foldl_map, List.length_map,
    List.length_range, registerAfter]
  rfl

/-- Calls of encryptByte under all-ones masks are the run of clocks on the bits of their bytes. -/
theorem foldl_encryptByte_ones (ss : Session) (bytes : List Byte) :
    bytes.foldl (fun ss x => (encryptByte ss x 0xff 0xff).1) ss = onesClocks ss (bytes.flatMap byteBits) := by
  induction bytes generalizing ss with
  | nil => rfl
  | cons x bytes ih =>
    rw [List.foldl_cons, encryptByte_ones_session, ih, List.flatMap_cons, onesClocks_append]

/-! ### Init (rules R172 to R174) -/

/-- The 128 bits of an array, bit `i` being bit `i mod 8` of byte `i / 8` (rules R27, R28, R74). -/
def Bytes16.bits (v : Bytes16) : List Bool := (List.range 128).map fun i => (v.read (i / 8)).getLsbD (i % 8)

/-- The initialization sequence `m` (rule R173). -/
def initBits (key iv : Bytes16) : List Bool := key.bits ++ iv.bits ++ [true] ++ List.replicate 1279 false

/-- The bytes of the byte form of Init (rule R174). -/
def initBytes (key iv : Bytes16) : List Byte :=
  (List.range 16).map key.read ++ (List.range 16).map iv.read ++ [0x01] ++ List.replicate 159 0x00

/-- The indices of `initBit` fall into the four parts of the sequence. -/
theorem map_initBit_range (key iv : Bytes16) : (List.range initClocks).map (initBit key iv) = initBits key iv := by
  have hkey : (List.range 128).map (initBit key iv) = key.bits :=
    List.map_congr_left fun i hi => if_pos (List.mem_range.mp hi)
  have hiv : (List.range 128).map (fun i => initBit key iv (128 + i)) = iv.bits :=
    List.map_congr_left fun i hi => by
      have := List.mem_range.mp hi
      rw [initBit, if_neg (by omega), if_pos (by omega), Nat.add_sub_cancel_left]
      rfl
  have hzeros : (List.range 1279).map (fun i => initBit key iv (257 + i)) = List.replicate 1279 false := by
    refine List.eq_replicate_iff.mpr ⟨by rw [List.length_map, List.length_range], fun b hb => ?_⟩
    obtain ⟨i, -, rfl⟩ := List.mem_map.mp hb
    rw [initBit, if_neg (by omega), if_neg (by omega)]
    exact decide_eq_false (by omega)
  rw [show initClocks = 128 + 128 + 1 + 1279 by rw [initClocks], List.range_add, List.range_succ, List.range_add]
  simp only [List.map_append, List.map_map, Function.comp_def, hkey, hiv, hzeros]
  rfl

theorem phaseInit_eq_onesClocks (key iv : Bytes16) : phaseInit key iv = onesClocks Session.start (initBits key iv) := by
  rw [phaseInit, Session.fold_eq_foldl, onesClocks, ← map_initBit_range, List.foldl_map]

/-- Settles O8: Init is the run of clocks on the initialization sequence. -/
theorem initClocksKeyThenIvThenOne : Obligations.InitClocksKeyThenIvThenOne := by
  intro key iv
  refine ⟨phaseInit_clocks key iv, ?_⟩
  rw [phaseInit_eq_onesClocks, onesClocks_eq]
  simp only [initBits, Bytes16.bits, Session.start]

/-- The bits of consecutive bytes are numbered through: bit `i` is bit `i mod 8` of byte `i / 8`. -/
theorem flatMap_byteBits_range (f : Nat → Byte) (n : Nat) :
    ((List.range n).map f).flatMap byteBits = (List.range (8 * n)).map fun i => (f (i / 8)).getLsbD (i % 8) := by
  induction n with
  | zero => rfl
  | succ n ih =>
    have hlast : byteBits (f n) = (List.range 8).map fun i => (f ((8 * n + i) / 8)).getLsbD ((8 * n + i) % 8) :=
      List.map_congr_left fun i hi => by
        have := List.mem_range.mp hi
        rw [show (8 * n + i) / 8 = n by omega, show (8 * n + i) % 8 = i by omega]
    rw [List.range_succ, List.map_append, List.flatMap_append, ih, Nat.mul_succ, List.range_add, List.map_append,
      List.map_map, List.map_singleton, List.flatMap_singleton, hlast]
    rfl

/-- The bits of the bytes of rule R174 are the sequence of rule R173. -/
theorem flatMap_byteBits_initBytes (key iv : Bytes16) : (initBytes key iv).flatMap byteBits = initBits key iv := by
  have hone : byteBits 0x01 = [true] ++ List.replicate 7 false := by decide
  have hzero : byteBits 0x00 = List.replicate 8 false := by decide
  rw [initBytes, List.flatMap_append, List.flatMap_append, List.flatMap_append, flatMap_byteBits_range,
    flatMap_byteBits_range, List.flatMap_singleton, hone, List.flatMap_replicate, hzero,
    List.flatten_replicate_replicate, initBits, List.append_assoc, List.append_assoc [true],
    List.replicate_append_replicate, ← List.append_assoc]
  rfl

/-- Settles O9: both forms of Init are the run of clocks on one sequence of bits. -/
theorem initEqualsItsByteForm : Obligations.InitEqualsItsByteForm := fun key iv => by
  rw [phaseInit_eq_onesClocks, ← flatMap_byteBits_initBytes, ← foldl_encryptByte_ones]
  rfl

/-! ### AbsorbAAD and the pads (rules R175, R176, R179) -/

/-- The input and `ca` bytes of the calls of either pad. -/
def padCalls : List (Byte × Byte) :=
  [(0x01, 0xff), (0, 0xff), (0, 0xff), (0, 0xff), (0, 0), (0, 0), (0, 0), (0, 0)]

/-- The two pads differ in their `cb` byte only, which is the same in all calls of a pad. -/
theorem pad_eq_foldl_padCalls (cb : Byte) (ss : Session) :
    pad (fun i => ⟨if i < padCaBytes then 0xff else 0x00, cb⟩) ss =
      padCalls.foldl (fun ss c => (encryptByte ss c.1 c.2 cb).1) ss := by
  have hcalls : padCalls = (List.range padBytes).map fun i => (padInput i, if i < padCaBytes then 0xff else 0x00) := by
    decide
  rw [pad, Session.fold_eq_foldl, hcalls, List.foldl_map]

/-- Settles O10: each phase is the fold of its calls. -/
theorem absorbAndPadsMakeTheListedCalls : Obligations.AbsorbAndPadsMakeTheListedCalls := fun ss aad =>
  ⟨Session.fold_eq_foldl _ ss aad, pad_eq_foldl_padCalls 0xff ss, pad_eq_foldl_padCalls 0x00 ss⟩

/-! ### Process and Finalize (rules R177, R178, R180) -/

/-- Output `j` of a phase is the output of step `j`, made in the session that the steps before it have left. -/
theorem Session.getD_collect {α β : Type} (f : Session → α → Session × β) (ss : Session) {l : List α} {j : Nat}
    (hj : j < l.length) (a : α) (b : β) :
    (Session.collect f ss l).2.getD j b = (f ((l.take j).foldl (fun ss x => (f ss x).1) ss) (l.getD j a)).2 := by
  induction l generalizing ss j with
  | nil => exact absurd hj (Nat.not_lt_zero j)
  | cons x xs ih =>
    rw [Session.collect_cons]
    cases j with
    | zero => rfl
    | succ j => exact ih _ (Nat.lt_of_succ_lt_succ hj)

/-- Settles O11: Process in either direction keeps the outputs of its calls. -/
theorem processMakesOneCallPerByte : Obligations.ProcessMakesOneCallPerByte := by
  intro ss data enc dec
  refine ⟨?_, ?_, length_processEnc ss data, length_processDec ss data, fun j hj => ⟨?_, ?_⟩⟩
  · exact (Session.collect_fst _ ss data).trans (congrArg (List.foldl _ ss) List.take_length.symm)
  · exact (Session.collect_fst _ ss data).trans (congrArg (List.foldl _ ss) List.take_length.symm)
  · exact Session.getD_collect _ ss hj 0 0
  · exact Session.getD_collect _ ss hj 0 0

/-- One call of Finalize: its session and its keystream byte (rules R100, R180). -/
def finalizeCall (ss : Session) : Session × Byte := Prod.map id Prod.snd (encryptByte ss 0x00 0xff 0xff)

theorem finalizeCall_session (ss : Session) : (finalizeCall ss).1 = (encryptByte ss 0x00 0xff 0xff).1 := by
  rw [finalizeCall, Prod.map_fst, id]

theorem finalizeCall_keystream (ss : Session) : (finalizeCall ss).2 = (encryptByte ss 0x00 0xff 0xff).2.2 := by
  rw [finalizeCall, Prod.map_snd]

/-- What the 64 calls of Finalize leave: the session and their keystream bytes (rule R180). -/
def finalizeCalls (ss : Session) : Session × List Byte :=
  Session.collect (fun ss (_ : Nat) => finalizeCall ss) ss (List.range 64)

/-- The session before call `j` of Finalize. -/
def finalizeSession (ss : Session) (j : Nat) : Session :=
  (List.range j).foldl (fun ss _ => (encryptByte ss 0x00 0xff 0xff).1) ss

/-- The parts of Finalize. What its calls leave is held in a variable, so that no projection of it is evaluated. -/
theorem finalize_parts {ss : Session} {r : Session × List Byte} (h : finalizeCalls ss = r) :
    (finalize ss).1 = r.1 ∧ (finalize ss).2 = Bytes16.ofList (r.2.drop 48) := by
  have hpair : finalize ss = ((finalizeCalls ss).1, Bytes16.ofList ((finalizeCalls ss).2.drop 48)) := rfl
  rw [hpair, h]
  exact ⟨rfl, rfl⟩

theorem finalizeCalls_session (ss : Session) : (finalizeCalls ss).1 = finalizeSession ss 64 := by
  simp only [finalizeCalls, Session.collect_fst, finalizeCall_session, finalizeSession]

theorem finalizeCalls_keystream (ss : Session) {j : Nat} (hj : j < 64) :
    (finalizeCalls ss).2.getD j 0 = (encryptByte (finalizeSession ss j) 0x00 0xff 0xff).2.2 := by
  have hcall : j < (List.range 64).length := List.length_range.symm ▸ hj
  rw [finalizeCalls, Session.getD_collect _ ss hcall 0, List.take_range, Nat.min_eq_left hj.le, finalizeCall_keystream]
  simp only [finalizeCall_session, finalizeSession]

/-- Settles O12: the session of the 64 calls, and of their keystream bytes those after the first 48. -/
theorem tagIsTheLastSixteenKeystreamBytes : Obligations.TagIsTheLastSixteenKeystreamBytes := by
  intro ss
  obtain ⟨hsession, htag⟩ := finalize_parts (ss := ss) rfl
  refine ⟨hsession.trans (finalizeCalls_session ss), fun k hk => ?_⟩
  rw [htag, Bytes16.read_ofList _ hk, List.getD_eq_getElem?_getD, List.getElem?_drop, ← List.getD_eq_getElem?_getD]
  exact finalizeCalls_keystream ss (by omega)

/-! ### The composite operations (rules R170, R181 to R185) -/

/-- The output is that of Process; the tag and the count are those of Finalize, after the second pad. -/
theorem aeadEnd_eq (r : Session × List Byte) :
    aeadEnd r = ⟨r.2, (finalize (padAfterMsg r.1)).2, (finalize (padAfterMsg r.1)).1.clocks⟩ := rfl

/-- The fields of a result known as a whole. Nothing of the two sides is unfolded. -/
theorem AeadResult.fields_of_eq {r : AeadResult} {out : List Byte} {tag : Bytes16} {clocks : Nat}
    (h : r = ⟨out, tag, clocks⟩) : r.out = out ∧ r.tag = tag ∧ r.clocks = clocks := by
  subst h
  exact ⟨rfl, rfl, rfl⟩

/-- Settles O13: the phases before and after Process, written out. -/
theorem aeadRunsTheSixPhasesInOrder : Obligations.AeadRunsTheSixPhasesInOrder := by
  intro key iv aad data pre fin
  obtain ⟨hout, htag, hclocks⟩ := AeadResult.fields_of_eq (aeadEnd_eq (processEnc pre data))
  obtain ⟨hout', htag', hclocks'⟩ := AeadResult.fields_of_eq (aeadEnd_eq (processDec pre data))
  exact ⟨hout, htag, hclocks, hout', htag', hclocks'⟩

/-- Settles O14: the clocks of the phases, added up. -/
theorem sessionClockCountDependsOnlyOnLengths : Obligations.SessionClockCountDependsOnlyOnLengths :=
  fun key iv aad data => ⟨aeadEncrypt_clocks key iv aad data, aeadDecrypt_clocks key iv aad data⟩

/-- When each step of one phase undoes the step of another, the phase undoes the other phase. -/
theorem Session.collect_inverse {α β : Type} {f : Session → α → Session × β} {g : Session → β → Session × α}
    (h : ∀ ss x, g ss (f ss x).2 = ((f ss x).1, x)) (ss : Session) (l : List α) :
    Session.collect g ss (Session.collect f ss l).2 = ((Session.collect f ss l).1, l) := by
  induction l generalizing ss with
  | nil => rfl
  | cons x xs ih => rw [Session.collect_cons, Session.collect_cons, h, ih]

/-- Process in the decrypt direction undoes the encrypt direction, call by call (rule R153). -/
theorem processDec_processEnc (ss : Session) (msg : List Byte) :
    processDec ss (processEnc ss msg).2 = ((processEnc ss msg).1, msg) :=
  Session.collect_inverse (fun ss m => (decryptByteInvertsEncryptByte ss m cfgMsg.ca cfgMsg.cb).2) ss msg

/-- Settles O15: the phases before Process are the same, and Process ends in the same session, from which the phases
after it run. -/
theorem aeadDecryptInvertsAeadEncrypt : Obligations.AeadDecryptInvertsAeadEncrypt := by
  intro key iv aad msg
  refine ⟨length_aeadEncrypt_out key iv aad msg, ?_⟩
  rw [aeadEncrypt, aeadDecrypt]
  obtain ⟨hout, htag, hclocks⟩ := AeadResult.fields_of_eq (aeadEnd_eq (processEnc (aeadBegin key iv aad) msg))
  rw [hout, htag, hclocks, processDec_processEnc, aeadEnd_eq]

end Sys2Proof.Machine

/-! SUPPORT. The commands (spec/43_host_commands.md), and the obligations of that file.

The tag comparator; the ends of ENCRYPT and of DECRYPT, one equation each; the effect that the two share where they end
with OK; CLEAR; the write to CMD. -/

namespace Sys2Proof.Machine

/-! ### The tag comparator (rule R214) -/

/-- An OR over a list is zero exactly when each of its terms is. -/
theorem foldl_or_eq_zero_iff {α : Type} (f : α → Byte) (l : List α) (d : Byte) :
    l.foldl (fun d k => d ||| f k) d = 0#8 ↔ d = 0#8 ∧ ∀ k ∈ l, f k = 0#8 := by
  induction l generalizing d with
  | nil => simp
  | cons k ks ih => rw [List.foldl_cons, ih, BitVec.or_eq_zero_iff, List.forall_mem_cons, and_assoc]

/-- Settles O16: the OR is zero exactly when the XOR of every pair of bytes is, which is when the pair is equal. -/
theorem comparatorReportsExactlyEquality : Obligations.ComparatorReportsExactlyEquality := by
  intro a b
  refine decide_eq_true_iff.trans ((foldl_or_eq_zero_iff (fun k => a.read k ^^^ b.read k) _ _).trans ?_)
  constructor
  · rintro ⟨_, hpairs⟩
    exact Bytes16.ext_read fun k hk => BitVec.xor_eq_zero_iff.1 (hpairs k (List.mem_range.2 hk))
  · rintro rfl
    exact ⟨rfl, fun _ _ => BitVec.xor_self⟩

/-! ### The ends of ENCRYPT and of DECRYPT (rules R203, R204) -/

section Ends

variable {s : State}

/-- `LengthOK` fails where a length is above its capacity (rule R206). -/
theorem State.lengthOk_eq_false_iff :
    s.lengthOk = false ↔ s.params.aadCap < s.aadLen.toNat ∨ s.params.msgCap < s.msgLen.toNat := by
  rw [← Bool.not_eq_true, State.lengthOk_iff]
  omega

theorem engineEncrypt_of_lengthOk (hl : s.lengthOk = true) : engineEncrypt s =
    (((s.writeMsgOut s.runEncrypt.out).setTagOut s.runEncrypt.tag).setClkcnt s.runEncrypt.clocks).complete .ok :=
  if_pos hl

theorem engineEncrypt_of_long (hl : s.lengthOk = false) : engineEncrypt s = s.complete .lengthError :=
  if_neg (Bool.eq_false_iff.1 hl)

theorem engineDecrypt_of_tagLen_ne (ht : s.tagLen ≠ 16) : engineDecrypt s = s.complete .tagLengthError :=
  if_pos ht

theorem engineDecrypt_of_long (ht : s.tagLen = 16) (hl : s.lengthOk = false) :
    engineDecrypt s = s.complete .lengthError := by
  rw [engineDecrypt, if_neg (not_not.2 ht), if_neg (Bool.eq_false_iff.1 hl)]

theorem engineDecrypt_of_tag_eq (ht : s.tagLen = 16) (hl : s.lengthOk = true) (htag : s.runDecrypt.tag = s.tagIn) :
    engineDecrypt s = ((s.setClkcnt s.runDecrypt.clocks).writeMsgOut s.runDecrypt.out).complete .ok := by
  rw [engineDecrypt, if_neg (not_not.2 ht), if_pos hl]
  exact if_pos ((comparatorReportsExactlyEquality _ _).2 htag)

theorem engineDecrypt_of_tag_ne (ht : s.tagLen = 16) (hl : s.lengthOk = true) (htag : s.runDecrypt.tag ≠ s.tagIn) :
    engineDecrypt s = (s.setClkcnt s.runDecrypt.clocks).complete .authenticationFail := by
  rw [engineDecrypt, if_neg (not_not.2 ht), if_pos hl]
  exact if_neg (mt (comparatorReportsExactlyEquality _ _).1 htag)

end Ends

/-- Settles O19: the length check is ENCRYPT's first. -/
theorem encryptRefusesLongLengths : Obligations.EncryptRefusesLongLengths := fun _ hlong =>
  congrArg Host.Outcome.next (engineEncrypt_of_long (State.lengthOk_eq_false_iff.2 hlong))

/-- Settles O20: the tag length is DECRYPT's first check; what its acceptance cleared is still clear. -/
theorem decryptGatesOnTagLength : Obligations.DecryptGatesOnTagLength := fun _ ht =>
  ⟨congrArg Host.Outcome.next (engineDecrypt_of_tagLen_ne ht), fun hinv hp => (hinv.quiet_of_pending hp).symm⟩

/-- Settles O21: the length check comes after the tag length. -/
theorem decryptRefusesLongLengths : Obligations.DecryptRefusesLongLengths := fun _ ht hlong =>
  congrArg Host.Outcome.next (engineDecrypt_of_long ht (State.lengthOk_eq_false_iff.2 hlong))

/-- Settles O23: of the run only its count is stored, and the count depends on the lengths alone. -/
theorem decryptWithholdsForgedPlaintext : Obligations.DecryptWithholdsForgedPlaintext := by
  intro s ht haad hmsg htag
  rw [← State.runDecrypt_eq] at htag
  rw [exec_eq_next, Instr.effect, engineDecrypt_of_tag_ne ht ((State.lengthOk_iff s).2 ⟨haad, hmsg⟩) htag,
    State.runDecrypt_clocks]
  rfl

/-! ### A run that ends with OK (rules R203, R204, R209) -/

/-- What a command that ends with OK does with its run and the tag it leaves in TAG_OUT: it completes, stores the output
and the count, and changes nothing else. -/
def State.ReleaseEffect (s : State) (run : AeadResult) (tag : Bytes16) (t : State) : Prop :=
  t.pending = none ∧ t.done = true ∧ t.result = .ok ∧ t.nfsr = 0
    ∧ t.tagOut = tag
    ∧ t.clkcnt.toNat = 2176 + 8 * (s.aadLen.toNat + s.msgLen.toNat)
    ∧ (∀ j, j < s.msgLen.toNat → t.mem.read (0x3000 + j) = run.out.getD j 0)
    ∧ (∀ a, ¬(0x3000 ≤ a ∧ a < 0x3000 + s.msgLen.toNat) → t.mem.read a = s.mem.read a)
    ∧ s.SameInputs t ∧ s.SameSetting t

/-- CLKCNT holds every count of a session: the lengths have 16 bits (rules R32, R33, R34). -/
theorem State.toNat_sessionClocks (s : State) :
    (BitVec.ofNat 32 (2176 + 8 * (s.aadLen.toNat + s.msgLen.toNat))).toNat =
      2176 + 8 * (s.aadLen.toNat + s.msgLen.toNat) := by
  have haad := s.aadLen.isLt
  have hmsg := s.msgLen.isLt
  rw [BitVec.toNat_ofNat]
  exact Nat.mod_eq_of_lt (by omega)

/-- Storing the output and the count and completing with OK has that effect. -/
theorem State.releaseEffect_complete {s t : State} (hm : s.mem.wf = true) {run : AeadResult}
    (hlen : run.out.length = s.msgLen.toNat) (hcount : run.clocks = 2176 + 8 * (s.aadLen.toNat + s.msgLen.toNat))
    (hmem : t.mem = s.mem.writeList msgOutBase run.out) (hclk : t.clkcnt = BitVec.ofNat 32 run.clocks)
    (hinputs : s.SameInputs t) (hsetting : s.SameSetting t) : s.ReleaseEffect run t.tagOut (t.complete .ok) := by
  have hread : ∀ a, t.mem.read a =
      if 0x3000 ≤ a ∧ a < 0x3000 + s.msgLen.toNat then run.out.getD (a - 0x3000) 0 else s.mem.read a := fun a => by
    rw [hmem, Memory.read_writeList hm, hlen, msgOutBase]
  refine ⟨rfl, rfl, rfl, rfl, rfl, ?_, fun j hj => ?_, fun a ha => (hread a).trans (if_neg ha), hinputs, hsetting⟩
  · rw [State.complete_clkcnt, hclk, hcount, s.toNat_sessionClocks]
  · rw [State.complete_mem, hread, if_pos (by omega), Nat.add_sub_cancel_left]

/-- The end of ENCRYPT, stated of every run, so that nothing evaluates one. -/
theorem State.encryptEnd_releaseEffect {s : State} (hm : s.mem.wf = true) {run : AeadResult}
    (hlen : run.out.length = s.msgLen.toNat) (hcount : run.clocks = 2176 + 8 * (s.aadLen.toNat + s.msgLen.toNat)) :
    s.ReleaseEffect run run.tag
      ((((s.writeMsgOut run.out).setTagOut run.tag).setClkcnt run.clocks).complete .ok) :=
  State.releaseEffect_complete hm hlen hcount rfl rfl ⟨rfl, rfl, rfl, rfl, rfl, rfl⟩ ⟨rfl, rfl, rfl, rfl⟩

/-- The end of DECRYPT on an authentic ciphertext, stated of every run. -/
theorem State.decryptEnd_releaseEffect {s : State} (hm : s.mem.wf = true) {run : AeadResult}
    (hlen : run.out.length = s.msgLen.toNat) (hcount : run.clocks = 2176 + 8 * (s.aadLen.toNat + s.msgLen.toNat)) :
    s.ReleaseEffect run s.tagOut (((s.setClkcnt run.clocks).writeMsgOut run.out).complete .ok) :=
  State.releaseEffect_complete hm hlen hcount rfl rfl ⟨rfl, rfl, rfl, rfl, rfl, rfl⟩ ⟨rfl, rfl, rfl, rfl⟩

/-- Settles O18: the end of ENCRYPT with legal lengths. -/
theorem encryptWritesCiphertextAndTag : Obligations.EncryptWritesCiphertextAndTag := by
  intro s hm haad hmsg
  rw [← State.runEncrypt_eq]
  refine ⟨_, exec_eq_next .encrypt s, ?_⟩
  rw [Instr.effect, engineEncrypt_of_lengthOk ((State.lengthOk_iff s).2 ⟨haad, hmsg⟩)]
  exact State.encryptEnd_releaseEffect hm s.length_runEncrypt_out s.runEncrypt_clocks

/-- Settles O22: the end of DECRYPT where the comparator reports equality. -/
theorem decryptReleasesAuthenticPlaintext : Obligations.DecryptReleasesAuthenticPlaintext := by
  intro s hm ht haad hmsg htag
  rw [← State.runDecrypt_eq] at htag ⊢
  refine ⟨_, exec_eq_next .decrypt s, ?_⟩
  rw [Instr.effect, engineDecrypt_of_tag_eq ht ((State.lengthOk_iff s).2 ⟨haad, hmsg⟩) htag]
  exact State.decryptEnd_releaseEffect hm s.length_runDecrypt_out s.runDecrypt_clocks

/-- A memory that holds the bytes of a list one after the other reads it back. -/
theorem Memory.readList_eq_of_getD {m : Memory} {a n : Nat} {l : List Byte} (hlen : l.length = n)
    (h : ∀ j, j < n → m.read (a + j) = l.getD j 0) : m.readList a n = l := by
  refine List.ext_getElem (by rw [Memory.length_readList, hlen]) fun j hj hj' => ?_
  rw [← List.getD_eq_getElem _ 0 hj, ← List.getD_eq_getElem _ 0 hj']
  rw [Memory.length_readList] at hj
  rw [Memory.getD_readList m a hj, h j hj]

/-- Settles O26: the buffers hold what ENCRYPT read and wrote, so the run of DECRYPT is the inverse of its run (O15). -/
theorem encryptThenDecryptRestoresMessage : Obligations.EncryptThenDecryptRestoresMessage := by
  intro s t u hm haad hmsg hs hmu hparams hkey hiv haadLen hmsgLen htagLen htagIn hsameAad hct
  obtain ⟨t', ht', _, _, _, _, htag, _, hout, _⟩ := encryptWritesCiphertextAndTag s hm haad hmsg
  cases hs.symm.trans ht'
  obtain ⟨hlen, hinverse⟩ := aeadDecryptInvertsAeadEncrypt s.key s.iv (s.mem.readList 0x1000 s.aadLen.toNat)
    (s.mem.readList 0x2000 s.msgLen.toNat)
  rw [Memory.length_readList] at hlen
  have hctList := Memory.readList_eq_of_getD hlen fun j hj => (hct j hj).trans (hout j hj)
  have hrun := decryptReleasesAuthenticPlaintext u hmu htagLen
  rw [hparams, hkey, hiv, haadLen, hmsgLen, htagIn, htag, hctList, Memory.readList_congr hsameAad, hinverse] at hrun
  obtain ⟨v, hv, _, _, hok, _, _, _, hplain, _⟩ := hrun haad hmsg rfl
  exact ⟨v, hv, hok, fun j hj => (hplain j hj).trans (Memory.getD_readList s.mem 0x2000 hj)⟩

/-! ### NOP and CLEAR (rules R205, R207) -/

/-- Settles O17. -/
theorem nopChangesNothing : Obligations.NopChangesNothing := exec_eq_next .nop

/-- CLEAR's memory reads 0 in the three buffers, and as before elsewhere. -/
theorem State.read_zeroBuffers (s : State) (a : Nat) :
    s.zeroBuffers.read a = if bufferByte s.params a = true then 0 else s.mem.read a := by
  rw [State.zeroBuffers, Memory.read_zeroRange, Memory.read_zeroRange, Memory.read_zeroRange, ← ite_or, ← ite_or]
  refine if_congr ?_ rfl rfl
  rw [bufferByte_iff, aadBase, msgInBase, msgOutBase]
  omega

/-- Settles O24: the fields as CLEAR writes them, and the bytes of its memory. -/
theorem clearZeroesEverythingButIrqEn : Obligations.ClearZeroesEverythingButIrqEn := by
  intro s
  refine ⟨_, exec_eq_next .clear s, rfl, rfl, rfl, rfl, rfl, rfl, rfl, rfl, rfl, rfl, rfl, rfl, fun a ha => ?_,
    fun a ha => ?_, (engineClear_frame s).setting⟩
  · exact (s.read_zeroBuffers a).trans (if_pos ha)
  · exact (s.read_zeroBuffers a).trans (if_neg (Bool.eq_false_iff.1 ha))

/-! ### The write to CMD (rules R200 to R202) -/

/-- While BUSY = 0 a 4-byte write at offset 0 is `CommandWrite`, answered OK. -/
theorem exec_cmdWrite {s : State} (hp : s.pending = none) (w : Word) :
    exec (.st32 0x00 w) s = .next ((s.commandWrite w).respond .ok) := by
  rw [exec_eq_next, Instr.effect, busStore_served (accessRow_cmd _) ((State.busy_eq_false_iff s).2 hp),
    rowWrite_register rfl, State.regWrite]

/-- The word of a command that can be latched is accepted as that command (rules R90, R201). -/
theorem commandWrite_of_encode (s : State) {op : Command} {v : Word} (h : encode op.instr = .command v) :
    s.commandWrite v = s.accept op := by
  cases op <;> cases h <;> rfl

/-- Settles O35: the word 0 does nothing, the command words are accepted, and the others refused. -/
theorem commandWriteAcceptsOrRefuses : Obligations.CommandWriteAcceptsOrRefuses := by
  intro s w hp
  rw [exec_cmdWrite hp]
  refine ⟨?_, fun hw => ?_, ?_⟩
  · rintro rfl
    rfl
  · rw [commandWrite_illegal s hw]
    rfl
  · intro op hw
    rw [commandWrite_of_encode s (show encode op.instr = .command w by rw [hw]; cases op <;> rfl)]
    exact ⟨_, rfl, rfl, rfl, rfl, rfl, rfl, rfl, s.mem.read_zeroRange msgOutBase s.params.msgCap,
      ⟨rfl, rfl, rfl, rfl, rfl, rfl⟩, rfl, rfl, rfl, rfl⟩

end Sys2Proof.Machine

/-! SUPPORT. Reset, CLEAR and the end of every command (spec/70_reset_and_hazards.md), and the obligations of that
file. -/

namespace Sys2Proof.Machine

/-! ### Reset and CLEAR (rules R205, R260, R262) -/

/-- An assertion of `rst` leaves the reset state with the rest of the events (rule R260). -/
theorem step_rst {s : State} {rest : List Event} (he : s.events = .rst :: rest) :
    step s = .next (State.resetWith s.params rest) := by
  simp only [step, fetch, he]

/-- Settles O43: the reset state with these capacities and events is the default one with these two fields set. -/
theorem rstAbandonsEverything : Obligations.RstAbandonsEverything := fun _ _ he => step_rst he

/-- Where only buffer bytes are listed, CLEAR leaves the empty memory of reset: each byte is zeroed or was never listed,
and the canonical form makes equal contents equal lists. -/
theorem State.Inv.zeroBuffers_eq_nil {s : State} (h : s.Inv) : s.zeroBuffers = [] := by
  have hwf : s.zeroBuffers.wf = true :=
    Memory.wf_zeroRange (Memory.wf_zeroRange (Memory.wf_zeroRange h.canonical _ _) _ _) _ _
  refine Memory.ext_wf hwf rfl fun a => ?_
  rw [s.read_zeroBuffers]
  split
  · rfl
  · next ha => exact Memory.read_of_inBuffers h.buffersOnly (Bool.eq_false_iff.2 ha)

/-- Settles O25: CLEAR writes every field of the architectural state but IRQ_EN, and its memory is that of reset. -/
theorem clearEqualsResetButIrqEnAndStatus : Obligations.ClearEqualsResetButIrqEnAndStatus := by
  intro s h
  rw [exec_eq_next, Instr.effect, engineClear, h.zeroBuffers_eq_nil]
  rfl

/-! ### Every run comes to BUSY = 0 (rule R280) -/

/-- At most `n` steps lead to a state with BUSY = 0. -/
def State.IdleWithin (s : State) (n : Nat) : Prop :=
  ∃ k t, k ≤ n ∧ Sys2Proof.core.run k s = .next t ∧ t.busy = false

theorem State.IdleWithin.of_idle {s : State} (hb : s.busy = false) (n : Nat) : s.IdleWithin n :=
  ⟨0, s, Nat.zero_le n, rfl, hb⟩

/-- A step before a run that comes to BUSY = 0 adds one to its bound. -/
theorem State.IdleWithin.of_step {s t : State} {n : Nat} (hs : step s = .next t) (ht : t.IdleWithin n) :
    s.IdleWithin (n + 1) := by
  obtain ⟨k, u, hk, hrun, hu⟩ := ht
  exact ⟨k + 1, u, Nat.succ_le_succ hk, (run_succ_of_step hs k).trans hrun, hu⟩

/-- The engine's turn leaves BUSY = 0: the latched command completes in one step (rules R38, R236). -/
theorem State.EngineTurn.idleWithin {s : State} (ht : s.EngineTurn) {op : Command} (hp : s.pending = some op)
    (n : Nat) : s.IdleWithin (n + 1) := by
  have hframe := effect_of_command op { s with events := s.events.tail, resp := none }
  exact .of_step ((step_engineTurn ht hp).trans (exec_eq_next _ _))
    (.of_idle ((State.busy_eq_false_iff _).2 hframe.pending) n)

/-- While a command is latched, each event to come is a host's transaction, which leaves it waiting, or ends the wait;
with none left the engine takes its turn (log entry 2). Induction over the events. -/
theorem State.idleWithin_of_pending (l : List Event) {s : State} {op : Command} (he : s.events = l)
    (hp : s.pending = some op) : s.IdleWithin (l.length + 1) := by
  induction l generalizing s with
  | nil => exact State.EngineTurn.idleWithin (.inl he) hp _
  | cons e rest ih =>
    cases e with
    | host req =>
      obtain ⟨r, hs⟩ := step_host_of_busy hp he
      exact .of_step hs (ih rfl hp)
    | engine => exact State.EngineTurn.idleWithin (.inr ⟨rest, he⟩) hp _
    | rst => exact .of_step (step_rst he) (.of_idle rfl _)

/-- Settles O50: no step where nothing is latched, and the wait for the engine's turn or `rst` where a command is. -/
theorem blockBecomesIdleWithinItsEvents : Obligations.BlockBecomesIdleWithinItsEvents := by
  intro s
  cases hp : s.pending with
  | none => exact State.IdleWithin.of_idle ((State.busy_eq_false_iff s).2 hp) _
  | some op => exact State.idleWithin_of_pending s.events rfl hp

end Sys2Proof.Machine
